-- ==== Sys2Proof/Word.lean ====
section
/-! DEFINITION. The word types of the machine: every register, latch, RAM cell and ALU operand is 8 bits wide and
the flags register 4 (spec/00_scope.md R4, R6; spec/10_state.md R15). -/

namespace Sys2Proof

/-- One byte: the width XLEN of every general register, latch, RAM cell, address and ALU operand (R4). Bit 0 is the
least significant (R6) and arithmetic wraps modulo 256 (R7). -/
abbrev Byte := BitVec 8

/-- The four flag bits, and the four-bit mask of a JXXX (R15, R50). -/
abbrev FlagBits := BitVec 4

end Sys2Proof
end

