-- ==== Sys2Proof/Config.lean ====
section
/-! DEFINITION. What an implementation fixes and what it leaves free: the fixed parameters of spec/00_scope.md R4, the
alternatives of the open parameters of R5 (the value taken for each stands in Machine/Params.lean, where a repair can
reach it), the data that pass between the core and a port handler (spec/44_clf_io.md R116 to R118), and the opaque
constants that stand for what no rule fixes. -/

namespace Sys2Proof

/-- The four general registers x[0] to x[3] (spec/10_state.md R10), under the names of R12. -/
structure Registers where
  ra : Byte
  rb : Byte
  rc : Byte
  rd : Byte
deriving DecidableEq, Repr, Inhabited

/-- A port call as the core makes it: `PortIn(p)` or `PortOut(p, v)` (R116, R117). -/
inductive PortCall where
  | input (port : Byte)
  | output (port : Byte) (value : Byte)
deriving DecidableEq, Repr, Inhabited

/-- A port call that has happened, with the byte that passed: what R130 calls the sequence of port calls made with
their arguments. -/
inductive PortEvent where
  | input (port : Byte) (value : Byte)
  | output (port : Byte) (value : Byte)
deriving DecidableEq, Repr, Inhabited

/-- The register writes of a handler: any of x[0..3], any byte (R118 (b)); `none` leaves that register alone. -/
structure RegisterWrites where
  ra : Option Byte
  rb : Option Byte
  rc : Option Byte
  rd : Option Byte
deriving DecidableEq, Repr, Inhabited

/-- What one invocation of a registered handler does to the core, within the envelope of R118: it returns a byte
(of no meaning for an output handler), may clear `running`, may write registers; or it never returns (R155). -/
inductive PortReply where
  | returns (value : Byte) (halt : Bool) (writes : RegisterWrites)
  | neverReturns
deriving DecidableEq, Repr, Inhabited

/-- All that a handler's behaviour may depend on besides the call and the device's own state: registers, FLAGS, RAM,
IOADDR and `running` (R118, decision D15). PC, clock_cycle and the latches are not in it. -/
structure HandlerView where
  regs : Registers
  flags : FlagBits
  ram : List Host.Cell
  ioaddr : Byte
  running : Bool
deriving DecidableEq, Repr

/-! The alternatives of R5. -/

/-- IO_LAYOUT: where an IO instruction holds its submode (D3). -/
inductive IoLayout where
  | submodeInA
  | submodeInB
deriving DecidableEq, Repr

/-- ALU_CIN_SOURCE: what drives the ALU's carry-in in an ALU-class instruction (D4). -/
inductive CarryInSource where
  | carryFlag
  | zero
deriving DecidableEq, Repr

/-- CMP_ZERO_POLICY: what CMP does to the ZERO flag (D6). -/
inductive CmpZeroPolicy where
  | clear
  | preserve
deriving DecidableEq, Repr

/-- MICRO_INA: what the micro-cycle engine does for IO submode 1 (D21). -/
inductive MicroInaBehaviour where
  | readback
  | nop
deriving DecidableEq, Repr

/-- FAST_LATCHES: the latches after a fast call (D11). -/
inductive FastLatchPolicy where
  | same
  | any
deriving DecidableEq, Repr

/-- The four latches, to name the free values of FAST_LATCHES = any. -/
inductive Latch where
  | ir
  | mar
  | acc
  | tmp
deriving DecidableEq, Repr

namespace Config

/-- NPOS (R4): micro-cycle positions per instruction. -/
def positions : Nat := 7

/-- CYCLE_INC (R4): what one micro-cycle call adds to clock_cycle. -/
def cycleInc : Nat := 1

/-- FAST_INC (R4): what one fast-dispatch call adds to clock_cycle. -/
def fastInc : Nat := 6

/-- RAM_SIZE (R4). -/
def ramSize : Nat := 256

/-- A FREE VALUE: the reply of a handler once State's `replies` says nothing more about it. It depends on the call, on
what R118 lets a handler see, and on the port traffic so far, which stands for the device's own state. No body: a
claim holds for every reply (spec/93_implementation_defined.md U5). Log entry 3. -/
opaque handlerReply : PortCall → HandlerView → List PortEvent → PortReply

/-- A FREE VALUE: a latch after a fast call under FAST_LATCHES = any (R5, U11), by latch and clock_cycle. Not used at
the default `same`. Log entry 11. -/
opaque freeLatch : Latch → Nat → Byte

end Config

end Sys2Proof
end

