-- ==== Sys2Proof/Machine/Params.lean ====
section
/-! DEFINITION. The value taken for each open parameter of spec/00_scope.md R5: the spec's default, for which every rule
of the spec is written. One definition each, so that an alternative is one edit. -/

namespace Sys2Proof.Machine

/-- FLAG_BIT (R5, D1; spec/10_state.md R15): ZERO is bit 0. -/
def Params.zeroBit : Nat := 0

/-- FLAG_BIT (R5, D1; R15): EQUAL is bit 1. -/
def Params.equalBit : Nat := 1

/-- FLAG_BIT (R5, D1; R15): A_LARGER is bit 2. -/
def Params.aLargerBit : Nat := 2

/-- FLAG_BIT (R5, D1; R15): CARRY is bit 3. -/
def Params.carryBit : Nat := 3

/-- IO_LAYOUT (R5, D3; spec/30_encoding.md R51): submode in bits 3-2, register in bits 1-0. -/
def Params.ioLayout : IoLayout := .submodeInA

/-- ALU_CIN_SOURCE (R5, D4; spec/40_alu.md R74): the CARRY flag. -/
def Params.aluCinSource : CarryInSource := .carryFlag

/-- CMP_ZERO_POLICY (R5, D6; spec/40_alu.md R73): ZERO is 0 after CMP. -/
def Params.cmpZeroPolicy : CmpZeroPolicy := .clear

/-- MICRO_INA (R5, D21; spec/44_clf_io.md R121): both engines read IOADDR back. -/
def Params.microIna : MicroInaBehaviour := .readback

/-- FAST_LATCHES (R5, D11; spec/45_fast_dispatch.md R129): as seven micro-cycles leave them. -/
def Params.fastLatches : FastLatchPolicy := .same

/-- CLOCK_WIDTH (R5, D12; spec/10_state.md R19): `none` is unbounded, `some n` wraps at 2^n. -/
def Params.clockWidth : Option Nat := none

end Sys2Proof.Machine
end

