-- ==== Sys2Proof/Syntax.lean ====
section
/-! DEFINITION. The instructions: one constructor per row of spec/opcode_table.json, with the operands of the formats
of spec/30_encoding.md R47. -/

namespace Sys2Proof

/-- A register operand: the 2-bit index of field A or B (spec/30_encoding.md R52), under the names of
spec/10_state.md R12. -/
inductive Reg where
  | ra
  | rb
  | rc
  | rd
deriving DecidableEq, Repr, Inhabited

/-- The eight ALU operations in the order of their codes 0 to 7 (spec/30_encoding.md R49). -/
inductive AluOp where
  | add
  | shl
  | shr
  | not
  | and
  | or
  | xor
  | cmp
deriving DecidableEq, Repr, Inhabited

/-- The 19 instructions (spec/30_encoding.md R48, R51). `a` is operand A (bits 3-2), `b` operand B (bits 1-0); `imm` and
`addr` are the second byte; `mask` is the 4-bit flag mask of R50. Fields an instruction ignores (R53) are not operands. -/
inductive Instr where
  | ld (a b : Reg)
  | st (a b : Reg)
  | data (b : Reg) (imm : Byte)
  | jmpr (b : Reg)
  | jmp (addr : Byte)
  | jxxx (mask : FlagBits) (addr : Byte)
  | clf
  | ind (b : Reg)
  | ina (b : Reg)
  | outd (b : Reg)
  | outa (b : Reg)
  | add (a b : Reg)
  | shl (a b : Reg)
  | shr (a b : Reg)
  | not (a b : Reg)
  | and (a b : Reg)
  | or (a b : Reg)
  | xor (a b : Reg)
  | cmp (a b : Reg)
deriving DecidableEq, Repr, Inhabited

/-- The length in bytes: 2 for DATA, JMP and JXXX, else 1 (spec/30_encoding.md R45). -/
def Instr.length : Instr → Nat
  | .data _ _ | .jmp _ | .jxxx _ _ => 2
  | .ld _ _ | .st _ _ | .jmpr _ | .clf | .ind _ | .ina _ | .outd _ | .outa _ => 1
  | .add _ _ | .shl _ _ | .shr _ _ | .not _ _ | .and _ _ | .or _ _ | .xor _ _ | .cmp _ _ => 1

/-- ADD to XOR and CMP: the instructions of classes 8 to 15. -/
def Instr.isAlu : Instr → Bool
  | .add _ _ | .shl _ _ | .shr _ _ | .not _ _ | .and _ _ | .or _ _ | .xor _ _ | .cmp _ _ => true
  | .ld _ _ | .st _ _ | .data _ _ | .jmpr _ | .jmp _ | .jxxx _ _ | .clf => false
  | .ind _ | .ina _ | .outd _ | .outa _ => false

end Sys2Proof
end

