-- ==== Sys2Proof/WellFormed.lean ====
section
/-! DEFINITION. Well-formedness. Every operand an `Instr` can carry is representable in its encoding (a register is one
of four, a mask 4 bits, an immediate 8), and no encoding is illegal (spec/30_encoding.md R53), so every instruction is
well-formed. What can be ill-formed is a string of bytes offered as ONE instruction: too short, too long, or not the
canonical encoding, which has the unused fields 0 (R53, decision D10). -/

namespace Sys2Proof

/-- Every instruction is well-formed: its operands' types hold the whole range of their fields (R52, R53). -/
def Instr.wellFormed : Instr → Bool
  | .ld _ _ | .st _ _ | .data _ _ | .jmpr _ | .jmp _ | .jxxx _ _ | .clf => true
  | .ind _ | .ina _ | .outd _ | .outa _ => true
  | .add _ _ | .shl _ _ | .shr _ _ | .not _ _ | .and _ _ | .or _ _ | .xor _ _ | .cmp _ _ => true

/-- The bits of an opcode byte that its class ignores: bits 3-2 for DATA and JMPR, bits 3-0 for JMP and CLF, none for the
others (R53). -/
def unusedBits (w : Byte) : Byte :=
  match (w.extractLsb' 4 4).toNat with
  | 2 | 3 => 0x0C#8
  | 4 | 6 => 0x0F#8
  | _ => 0x00#8

/-- The opcode byte is the canonical one of its instruction: the unused bits are 0 (R53, D10). -/
def canonicalOpcode (w : Byte) : Bool := w &&& unusedBits w == 0#8

/-- The opcode byte begins a 2-byte instruction: classes 2, 4 and 5 (R45). -/
def isTwoByte (w : Byte) : Bool :=
  match (w.extractLsb' 4 4).toNat with
  | 2 | 4 | 5 => true
  | _ => false

/-- The bytes are exactly one canonical instruction: right length (R45), canonical opcode (R53). -/
def wellFormedBytes : List Byte → Bool
  | [w] => !isTwoByte w && canonicalOpcode w
  | [w, _] => isTwoByte w && canonicalOpcode w
  | _ => false

end Sys2Proof
end

