-- ==== Sys2Proof/Decode.lean ====
section
/-! DEFINITION. The decoder and the encoder (spec/30_encoding.md R45 to R59). Every byte decodes (R53); only a byte string
that ends before its instruction does is rejected, by name. -/

namespace Sys2Proof

/-! Fields of the opcode byte (R46). -/

/-- Bits 7-4, the opcode class (R46). -/
def fieldClass (w : Byte) : BitVec 4 := w.extractLsb' 4 4

/-- Bits 3-2, operand A (R46). -/
def fieldA (w : Byte) : BitVec 2 := w.extractLsb' 2 2

/-- Bits 1-0, operand B (R46). -/
def fieldB (w : Byte) : BitVec 2 := w.extractLsb' 0 2

/-- Bits 6-4, the ALU operation select (R49). -/
def fieldAluOp (w : Byte) : BitVec 3 := w.extractLsb' 4 3

/-- Bits 3-0, the JXXX flag mask (R50). -/
def fieldMask (w : Byte) : FlagBits := w.extractLsb' 0 4

/-- Bit 7, set for the ALU class (R46). -/
def isAluClass (w : Byte) : Bool := w.getLsbD 7

/-- The register a 2-bit index names (R52; spec/10_state.md R12). -/
def regOfIndex (i : BitVec 2) : Reg :=
  match i.toNat with
  | 0 => .ra
  | 1 => .rb
  | 2 => .rc
  | _ => .rd

/-- The 2-bit index of a register. -/
def indexOfReg : Reg → BitVec 2
  | .ra => 0#2
  | .rb => 1#2
  | .rc => 2#2
  | .rd => 3#2

/-- Operand A as a register. -/
def regA (w : Byte) : Reg := regOfIndex (fieldA w)

/-- Operand B as a register. -/
def regB (w : Byte) : Reg := regOfIndex (fieldB w)

/-- The ALU operation of a 3-bit code (R49). -/
def aluOpOfCode (c : BitVec 3) : AluOp :=
  match c.toNat with
  | 0 => .add
  | 1 => .shl
  | 2 => .shr
  | 3 => .not
  | 4 => .and
  | 5 => .or
  | 6 => .xor
  | _ => .cmp

/-- The 3-bit code of an ALU operation (R49). -/
def codeOfAluOp : AluOp → BitVec 3
  | .add => 0#3
  | .shl => 1#3
  | .shr => 2#3
  | .not => 3#3
  | .and => 4#3
  | .or => 5#3
  | .xor => 6#3
  | .cmp => 7#3

/-- The four submodes of the IO class, in the order of their numbers 0 to 3 (R51). -/
inductive IoSubmode where
  | ind
  | ina
  | outd
  | outa
deriving DecidableEq, Repr

/-- The submode of a 2-bit number (R51). -/
def ioSubmodeOf (n : BitVec 2) : IoSubmode :=
  match n.toNat with
  | 0 => .ind
  | 1 => .ina
  | 2 => .outd
  | _ => .outa

/-- The 2-bit number of a submode (R51). -/
def numberOfSubmode : IoSubmode → BitVec 2
  | .ind => 0#2
  | .ina => 1#2
  | .outd => 2#2
  | .outa => 3#2

/-- The submode of an IO opcode byte: bits 3-2 at the default IO_LAYOUT (R51; R5). -/
def ioSub (w : Byte) : IoSubmode :=
  match Machine.Params.ioLayout with
  | .submodeInA => ioSubmodeOf (fieldA w)
  | .submodeInB => ioSubmodeOf (fieldB w)

/-- The target register of an IO opcode byte: bits 1-0 at the default IO_LAYOUT (R51; R5). -/
def ioReg (w : Byte) : Reg :=
  match Machine.Params.ioLayout with
  | .submodeInA => regB w
  | .submodeInB => regA w

/-- The 16 opcode classes: eight of their own and the eight ALU operations (R48). -/
inductive OpClass where
  | ld
  | st
  | data
  | jmpr
  | jmp
  | jxxx
  | clf
  | io
  | alu (op : AluOp)
deriving DecidableEq, Repr

/-- The class of an opcode byte: bit 7 tells the ALU class, bits 6-4 the rest (R48, R49; `90_conflicts.md` C7). -/
def opClass (w : Byte) : OpClass :=
  if isAluClass w then .alu (aluOpOfCode (fieldAluOp w))
  else
    match (fieldAluOp w).toNat with
    | 0 => .ld
    | 1 => .st
    | 2 => .data
    | 3 => .jmpr
    | 4 => .jmp
    | 5 => .jxxx
    | 6 => .clf
    | _ => .io

/-! Decoding. -/

/-- The ALU-class instruction of an operation on registers `a` and `b` (R54). -/
def aluInstr (op : AluOp) (a b : Reg) : Instr :=
  match op with
  | .add => .add a b
  | .shl => .shl a b
  | .shr => .shr a b
  | .not => .not a b
  | .and => .and a b
  | .or => .or a b
  | .xor => .xor a b
  | .cmp => .cmp a b

/-- The IO instruction of a submode (R51, R54). -/
def ioInstr (sub : IoSubmode) (b : Reg) : Instr :=
  match sub with
  | .ind => .ind b
  | .ina => .ina b
  | .outd => .outd b
  | .outa => .outa b

/-- The decode function of R54, total on the opcode byte `w` and the byte `imm` that follows it (used by the 2-byte
classes only). -/
def decodeOp (w imm : Byte) : Instr :=
  match opClass w with
  | .ld => .ld (regA w) (regB w)
  | .st => .st (regA w) (regB w)
  | .data => .data (regB w) imm
  | .jmpr => .jmpr (regB w)
  | .jmp => .jmp imm
  | .jxxx => .jxxx (fieldMask w) imm
  | .clf => .clf
  | .io => ioInstr (ioSub w) (ioReg w)
  | .alu op => aluInstr op (regA w) (regB w)

/-- Why a byte string is no instruction: it ends too soon. There is no illegal opcode (R53). -/
inductive DecodeError where
  /-- no opcode byte -/
  | noOpcode
  /-- the second byte of a 2-byte instruction is missing -/
  | noSecondByte
deriving DecidableEq, Repr

/-- The instruction at the head of a byte string, and the bytes after it (R45, R54). -/
def decode : List Byte → Except DecodeError (Instr × List Byte)
  | [] => .error .noOpcode
  | [w] => if isTwoByte w then .error .noSecondByte else .ok (decodeOp w 0#8, [])
  | w :: imm :: rest => if isTwoByte w then .ok (decodeOp w imm, rest) else .ok (decodeOp w imm, imm :: rest)

/-- The bytes of an instruction of which the table gives `nbits` bits with value `w`: the first byte in bits 7-0, the
second in bits 15-8, the bits above `nbits` zero. -/
def tableBytes (nbits w : Nat) : List Byte :=
  [BitVec.ofNat 8 (w % 2 ^ nbits), BitVec.ofNat 8 (w % 2 ^ nbits / 256)]

/-- The instruction the decoder reads from an opcode-table word. -/
def decodeTableWord (nbits w : Nat) : Option Instr :=
  match decode (tableBytes nbits w) with
  | .ok (i, _) => some i
  | .error _ => none

/-! Encoding, written from the formats of R47 and the class numbers of R48. -/

/-- The opcode byte of a class and the operand fields A and B (R46). -/
def opcodeByte (cls : BitVec 4) (a b : BitVec 2) : Byte := cls ++ a ++ b

/-- The opcode byte of a two-register instruction, format RR (R47). -/
def opcodeRR (cls : BitVec 4) (a b : Reg) : Byte := opcodeByte cls (indexOfReg a) (indexOfReg b)

/-- The opcode byte of an instruction with register B alone; field A is 0 (R47, R53). -/
def opcodeR (cls : BitVec 4) (b : Reg) : Byte := opcodeByte cls 0#2 (indexOfReg b)

/-- The opcode byte of an IO instruction, class 7 (R51; R5 IO_LAYOUT). -/
def opcodeIo (sub : IoSubmode) (b : Reg) : Byte :=
  match Machine.Params.ioLayout with
  | .submodeInA => opcodeByte 7#4 (numberOfSubmode sub) (indexOfReg b)
  | .submodeInB => opcodeByte 7#4 (indexOfReg b) (numberOfSubmode sub)

/-- The canonical bytes of an instruction (R47, R48, R53). -/
def encode : Instr → List Byte
  | .ld a b => [opcodeRR 0#4 a b]
  | .st a b => [opcodeRR 1#4 a b]
  | .data b imm => [opcodeR 2#4 b, imm]
  | .jmpr b => [opcodeR 3#4 b]
  | .jmp addr => [opcodeByte 4#4 0#2 0#2, addr]
  | .jxxx mask addr => [(5#4 ++ mask : BitVec 8), addr]
  | .clf => [opcodeByte 6#4 0#2 0#2]
  | .ind b => [opcodeIo .ind b]
  | .ina b => [opcodeIo .ina b]
  | .outd b => [opcodeIo .outd b]
  | .outa b => [opcodeIo .outa b]
  | .add a b => [opcodeRR 8#4 a b]
  | .shl a b => [opcodeRR 9#4 a b]
  | .shr a b => [opcodeRR 10#4 a b]
  | .not a b => [opcodeRR 11#4 a b]
  | .and a b => [opcodeRR 12#4 a b]
  | .or a b => [opcodeRR 13#4 a b]
  | .xor a b => [opcodeRR 14#4 a b]
  | .cmp a b => [opcodeRR 15#4 a b]

/-! The opcode/mnemonic table (R58). -/

/-- What the mnemonic table answers for a byte: the mnemonic and the two operand fields, with the class (R58, R59). -/
structure MnemonicEntry where
  mnemonic : String
  opClass : BitVec 4
  a : BitVec 2
  b : BitVec 2
deriving DecidableEq, Repr

/-- The letters of a JXXX mask: C, A, E, Z from bit 3 down (R56). -/
def maskLetters (mask : FlagBits) : String :=
  (if mask.getLsbD Machine.Params.carryBit then "C" else "") ++
  (if mask.getLsbD Machine.Params.aLargerBit then "A" else "") ++
  (if mask.getLsbD Machine.Params.equalBit then "E" else "") ++
  (if mask.getLsbD Machine.Params.zeroBit then "Z" else "")

/-- The name of a JXXX encoding: J and its letters, J0 for the empty mask (R56). -/
def jumpName (mask : FlagBits) : String :=
  if mask = 0#4 then "J0" else "J" ++ maskLetters mask

/-- The name of an ALU operation (R48). -/
def aluName : AluOp → String
  | .add => "ADD"
  | .shl => "SHL"
  | .shr => "SHR"
  | .not => "NOT"
  | .and => "AND"
  | .or => "OR"
  | .xor => "XOR"
  | .cmp => "CMP"

/-- The name of an IO submode (R51). -/
def ioName : IoSubmode → String
  | .ind => "IND"
  | .ina => "INA"
  | .outd => "OUTD"
  | .outa => "OUTA"

/-- The mnemonic of an opcode byte (R48, R51, R56), by the decode function's own choice (R58). -/
def mnemonicOf (w : Byte) : String :=
  match opClass w with
  | .ld => "LD"
  | .st => "ST"
  | .data => "DATA"
  | .jmpr => "JMPR"
  | .jmp => "JMP"
  | .jxxx => jumpName (fieldMask w)
  | .clf => "CLF"
  | .io => ioName (ioSub w)
  | .alu op => aluName op

/-- The opcode/mnemonic table: a pure function of one byte (R58). -/
def mnemonicTable (w : Byte) : MnemonicEntry :=
  { mnemonic := mnemonicOf w, opClass := fieldClass w, a := fieldA w, b := fieldB w }

end Sys2Proof
end

