-- ==== Sys2Proof/Machine/Flags.lean ====
section
/-! DEFINITION. The ALU as a pure function and the flag computations (spec/40_alu.md R60 to R65), the one implementation
both engines use, and the jump condition on FLAGS (spec/43_control_transfer.md R112, R114). -/

namespace Sys2Proof.Machine

/-- One flag at its bit of FLAGS. -/
def flagAt (bit : Nat) (v : Bool) : FlagBits := if v then 1#4 <<< bit else 0#4

/-- The flags output `{CARRY, A_LARGER, EQUAL, ZERO}` (R64; R5 FLAG_BIT). -/
def packFlags (carry aLarger equal zero : Bool) : FlagBits :=
  flagAt Params.carryBit carry ||| flagAt Params.aLargerBit aLarger |||
    flagAt Params.equalBit equal ||| flagAt Params.zeroBit zero

/-- The ZERO flag of a FLAGS value (spec/10_state.md R15). -/
def zeroFlag (f : FlagBits) : Bool := f.getLsbD Params.zeroBit

/-- The EQUAL flag of a FLAGS value (R15). -/
def equalFlag (f : FlagBits) : Bool := f.getLsbD Params.equalBit

/-- The A_LARGER flag of a FLAGS value (R15). -/
def aLargerFlag (f : FlagBits) : Bool := f.getLsbD Params.aLargerBit

/-- The CARRY flag of a FLAGS value (R15). -/
def carryFlag (f : FlagBits) : Bool := f.getLsbD Params.carryBit

/-- The carry-in as a byte, 0 or 1. -/
def carryByte (cin : Bool) : Byte := BitVec.ofNat 8 cin.toNat

/-- The exact sum of ADD, 0 to 511 (R65). -/
def addSum (a b : Byte) (cin : Bool) : Nat := a.toNat + b.toNat + cin.toNat

/-- The result byte (R65); 0 for CMP, which produces none (D8). -/
def aluResult (op : AluOp) (a b : Byte) (cin : Bool) : Byte :=
  match op with
  | .add => BitVec.ofNat 8 (addSum a b cin)
  | .shl => (a <<< 1) ||| carryByte cin
  | .shr => (a >>> 1) ||| (carryByte cin <<< 7)
  | .not => ~~~a
  | .and => a &&& b
  | .or => a ||| b
  | .xor => a ^^^ b
  | .cmp => 0#8

/-- The CARRY output: the carry out of ADD, the bit shifted out by SHL or SHR, else 0 (R63, R65). -/
def aluCarry (op : AluOp) (a b : Byte) (cin : Bool) : Bool :=
  match op with
  | .add => decide (addSum a b cin > 255)
  | .shl => a.getLsbD 7
  | .shr => a.getLsbD 0
  | .not | .and | .or | .xor | .cmp => false

/-- The A_LARGER output: unsigned `a > b`, for every operation (R61). -/
def aluALarger (a b : Byte) : Bool := decide (a.toNat > b.toNat)

/-- The EQUAL output: `a == b`, for every operation (R61). -/
def aluEqual (a b : Byte) : Bool := a == b

/-- The ZERO output: the result is 0, and the operation is not CMP (R62). -/
def aluZero (op : AluOp) (a b : Byte) (cin : Bool) : Bool :=
  op != .cmp && aluResult op a b cin == 0#8

/-- The flags output of the ALU (R64, R65). -/
def aluFlags (op : AluOp) (a b : Byte) (cin : Bool) : FlagBits :=
  packFlags (aluCarry op a b cin) (aluALarger a b) (aluEqual a b) (aluZero op a b cin)

/-- The two outputs of the ALU block (R60, R75). -/
structure AluOut where
  c : Byte
  f : FlagBits
deriving DecidableEq, Repr

/-- `ALU(op, a, b, cin) = (c, f)` (R60, R65). -/
def alu (op : AluOp) (a b : Byte) (cin : Bool) : AluOut :=
  { c := aluResult op a b cin, f := aluFlags op a b cin }

/-- The increment of PC, by ALU ADD with carry-in 0, flags discarded (R77 (a), (b); spec/41_microcycle_engine.md R91). -/
def increment (v : Byte) : Byte := (alu .add v 1#8 false).c

/-- The flags CLF writes: the flags output of `ALU(ADD, 0, 1, 0)` (R77 (c); spec/44_clf_io.md R115). -/
def clearedFlags : FlagBits := (alu .add 0#8 1#8 false).f

/-- The carry-in of an ALU-class instruction: the CARRY flag (R74; R5 ALU_CIN_SOURCE). -/
def aluCarryIn (flags : FlagBits) : Bool :=
  match Params.aluCinSource with
  | .carryFlag => carryFlag flags
  | .zero => false

/-- What an ALU-class instruction writes to FLAGS: the ALU's output whole (R74; R5 CMP_ZERO_POLICY, whose alternative
keeps the old ZERO across CMP). -/
def nextFlags (op : AluOp) (f old : FlagBits) : FlagBits :=
  match Params.cmpZeroPolicy with
  | .clear => f
  | .preserve => if op = .cmp then f ||| flagAt Params.zeroBit (zeroFlag old) else f

/-- The JXXX condition: some flag selected by the mask is set (R112, R114). -/
def jumpTaken (flags mask : FlagBits) : Bool := flags &&& mask != 0#4

end Sys2Proof.Machine
end

