-- ==== Sys2Proof/Machine/State.lean ====
section
/-! DEFINITION. The state of the machine as plain data: every field of spec/10_state.md, and three fields of the model's
own that stand for the outside (log entries 3, 4, 5). -/

namespace Sys2Proof.Machine

/-- RAM: the (address, byte) pairs of the cells that do not hold 0, by rising address (spec/10_state.md R25). -/
abbrev Memory := List Host.Cell

/-- The ports of a handler table whose slot holds a registered handler, by rising number; every other slot holds the
default (R27; spec/44_clf_io.md R119). -/
abbrev PortTable := List Byte

/-- The step operation the driver calls (spec/00_scope.md section 6; spec/60_exceptions.md R152). -/
inductive DriverCall where
  /-- `step_cycle()`: one micro-cycle (spec/41_microcycle_engine.md R96) -/
  | cycle
  /-- `step_instruction()`: micro-cycles to the next boundary (R97) -/
  | instruction
  /-- `step_instruction_fast()`: one instruction by the fast engine (spec/45_fast_dispatch.md R126) -/
  | fast
deriving DecidableEq, Repr

/-- The machine's state (spec/10_state.md section 1). -/
structure State where
  /-- general registers x[0] to x[3] (R10) -/
  regs : Registers
  /-- PC (R13) -/
  pc : Byte
  /-- IR (R17) -/
  ir : Byte
  /-- MAR (R21) -/
  mar : Byte
  /-- ACC (R22) -/
  acc : Byte
  /-- TMP (R23) -/
  tmp : Byte
  /-- FLAGS (R15) -/
  flags : FlagBits
  /-- IOADDR (R18) -/
  ioaddr : Byte
  /-- clock_cycle (R19) -/
  clockCycle : Nat
  /-- running (R20) -/
  running : Bool
  /-- RAM (R25) -/
  ram : Memory
  /-- in_handler (R27) -/
  inHandlers : PortTable
  /-- out_handler (R27) -/
  outHandlers : PortTable
  /-- the model's own: the answers the handlers will give, in the order of the calls (log entry 3) -/
  replies : List PortReply
  /-- the model's own: the port calls made, oldest first (log entry 4) -/
  traffic : List PortEvent
  /-- the model's own: the step operation the driver calls (log entry 5) -/
  driver : DriverCall
deriving DecidableEq, Repr

/-- Why the machine stops. The core itself raises nothing (spec/60_exceptions.md R140). -/
inductive Fault where
  /-- Raised by IND and OUTD, under either engine, when the handler they invoke never returns: the stuck state of R155
  (U6). SAFE: the hardware hangs there, and no later state exists. -/
  | handlerNeverReturns
deriving DecidableEq, Repr

/-- Why the model gives no meaning. -/
inductive Refusal where
  /-- Declared for the host; no arm of exec answers it, every instruction is modelled. SAFE. -/
  | notModelled (mnemonic : String)
deriving DecidableEq, Repr

/-- The machine right after reset (R29; spec/70_reset_and_hazards.md R160): every field 0, `running` true, every handler
slot the default. -/
def State.reset : State :=
  { regs := { ra := 0#8, rb := 0#8, rc := 0#8, rd := 0#8 }
    pc := 0#8
    ir := 0#8
    mar := 0#8
    acc := 0#8
    tmp := 0#8
    flags := 0#4
    ioaddr := 0#8
    clockCycle := 0
    running := true
    ram := []
    inHandlers := []
    outHandlers := []
    replies := []
    traffic := []
    driver := .fast }

end Sys2Proof.Machine
end

