-- ==== Sys2Proof/Machine/Ops.lean ====
section
/-! DEFINITION. The named operations over RAM, registers, clock and ports. There is no operation that takes an exception
and none that returns from one: the core raises none (spec/60_exceptions.md R140, R144, R145). -/

namespace Sys2Proof.Machine

/-! RAM (spec/20_memory.md R31). -/

/-- What a cell that is not listed holds: 0, the reset contents (spec/10_state.md R29). -/
def Memory.unlisted : Byte := 0#8

/-- `MemRead(addr, 1)` (R31). -/
def Memory.read : Memory → Nat → Byte
  | [], _ => Memory.unlisted
  | (k, v) :: rest, a => if k = a then v else Memory.read rest a

/-- The memory without a cell listed at `a`. -/
def Memory.erase (m : Memory) (a : Nat) : Memory := m.filter (fun c => decide (c.1 ≠ a))

/-- The memory with a cell put before the first of a greater or equal address. -/
def Memory.place : Memory → Nat → Byte → Memory
  | [], a, v => [(a, v)]
  | (k, w) :: rest, a, v => if a ≤ k then (a, v) :: (k, w) :: rest else (k, w) :: Memory.place rest a v

/-- `MemWrite(addr, 1, v)` (R31); a cell that comes to hold the unlisted value is not listed. -/
def Memory.write (m : Memory) (a : Nat) (v : Byte) : Memory :=
  if v = Memory.unlisted then m.erase a else (m.erase a).place a v

/-- The canonical form: addresses below 256, strictly rising, no cell listed with the unlisted value. -/
abbrev Memory.wf (m : Memory) : Prop :=
  m.Pairwise (fun c d => c.1 < d.1) ∧ ∀ c ∈ m, c.1 < Config.ramSize ∧ c.2 ≠ Memory.unlisted

/-- The byte of RAM at an 8-bit address; every address exists (R31). -/
def State.readByte (s : State) (a : Byte) : Byte := s.ram.read a.toNat

/-- The state with one byte of RAM written (R31). -/
def State.writeByte (s : State) (a v : Byte) : State := { s with ram := s.ram.write a.toNat v }

/-! General registers (spec/10_state.md R10, R11). -/

/-- Read of a register file. -/
def readRegister (g : Registers) : Reg → Byte
  | .ra => g.ra
  | .rb => g.rb
  | .rc => g.rc
  | .rd => g.rd

/-- Write of a register file; no register is hardwired (R10). -/
def writeRegister (g : Registers) (r : Reg) (v : Byte) : Registers :=
  match r with
  | .ra => { g with ra := v }
  | .rb => { g with rb := v }
  | .rc => { g with rc := v }
  | .rd => { g with rd := v }

/-- `x[r]`. -/
def State.reg (s : State) (r : Reg) : Byte := readRegister s.regs r

/-- `x[r] <- v`. -/
def State.setReg (s : State) (r : Reg) (v : Byte) : State := { s with regs := writeRegister s.regs r v }

/-! The clock (spec/10_state.md R19, R26). -/

/-- clock_cycle after adding `n`: unbounded at the default CLOCK_WIDTH (R19; R5). -/
def clockAfter (c n : Nat) : Nat :=
  match Params.clockWidth with
  | none => c + n
  | some w => (c + n) % 2 ^ w

/-- The state with `n` added to clock_cycle. -/
def State.tick (s : State) (n : Nat) : State := { s with clockCycle := clockAfter s.clockCycle n }

/-- The position `clock_cycle mod 7` (R26; spec/41_microcycle_engine.md R90). -/
def State.position (s : State) : Nat := s.clockCycle % Config.positions

/-! Outcomes. -/

/-- Go on from a next state; a fault or a refusal stays as it is. -/
def onNext (o : Host.Outcome State Fault Refusal) (f : State → Host.Outcome State Fault Refusal) :
    Host.Outcome State Fault Refusal :=
  match o with
  | .next s => f s
  | .fault r => .fault r
  | .refused r => .refused r

/-! Ports (spec/44_clf_io.md R116 to R119). -/

/-- A slot holds a registered handler, and not the default (R119). -/
def PortTable.registered (t : PortTable) (p : Byte) : Bool := t.contains p

/-- The table with a handler registered in a slot: a rising list with `p` in it. -/
def PortTable.register : PortTable → Byte → PortTable
  | [], p => [p]
  | q :: rest, p => if p.toNat < q.toNat then p :: q :: rest else if p = q then q :: rest else q :: PortTable.register rest p

/-- The canonical form of a table: strictly rising port numbers. -/
abbrev PortTable.wf (t : PortTable) : Prop := t.Pairwise (fun p q => p.toNat < q.toNat)

/-- What a handler may look at (R118). -/
def State.handlerView (s : State) : HandlerView :=
  { regs := s.regs, flags := s.flags, ram := s.ram, ioaddr := s.ioaddr, running := s.running }

/-- The reply of the registered handler a call invokes: the next of `replies`, and past their end a free value (R116, U5;
log entry 3). -/
def State.replyTo (s : State) (c : PortCall) : PortReply :=
  match s.replies with
  | r :: _ => r
  | [] => Config.handlerReply c s.handlerView s.traffic

/-- The registers after a handler's writes (R118 (b)). -/
def applyWrites (g : Registers) (w : RegisterWrites) : Registers :=
  { ra := w.ra.getD g.ra, rb := w.rb.getD g.rb, rc := w.rc.getD g.rc, rd := w.rd.getD g.rd }

/-- The state after a handler has returned: its register writes, `running` cleared if it halts, and nothing else of the
core (R118); the reply is used up and the call recorded. -/
def State.afterHandler (s : State) (halt : Bool) (w : RegisterWrites) (e : PortEvent) : State :=
  { s with
    regs := applyWrites s.regs w
    running := s.running && !halt
    replies := s.replies.tail
    traffic := s.traffic ++ [e] }

/-- `IND`'s transfer: with a handler registered at IOADDR, `v = PortIn(IOADDR)` and then `x[b] <- v`, after the handler's
own effects; with the default slot, nothing (R116, R119, R120, D16). A handler that never returns is stuck (R155). -/
def inputData (b : Reg) (s : State) : Host.Outcome State Fault Refusal :=
  if s.inHandlers.registered s.ioaddr then
    match s.replyTo (.input s.ioaddr) with
    | .returns v halt w => .next ((s.afterHandler halt w (.input s.ioaddr v)).setReg b v)
    | .neverReturns => .fault .handlerNeverReturns
  else .next s

/-- `OUTD`'s transfer: `PortOut(IOADDR, x[b])`; the default slot discards the byte (R117, R119, R122). A handler that
never returns is stuck (R155). -/
def outputData (b : Reg) (s : State) : Host.Outcome State Fault Refusal :=
  if s.outHandlers.registered s.ioaddr then
    match s.replyTo (.output s.ioaddr (s.reg b)) with
    | .returns _ halt w => .next (s.afterHandler halt w (.output s.ioaddr (s.reg b)))
    | .neverReturns => .fault .handlerNeverReturns
  else .next s

end Sys2Proof.Machine
end

