-- ==== Sys2Proof/Machine/Operands.lean ====
section
/-! DEFINITION. The operand forms and the advance of PC (spec/42_load_store_data.md R108; spec/30_encoding.md R52;
spec/10_state.md R13, R14). The machine has register operands, register-indirect addresses and one immediate byte, and
no other form. -/

namespace Sys2Proof.Machine

/-- The register-indirect address of LD and ST: the whole of `x[a]` (R108). -/
def indirectAddress (s : State) (a : Reg) : Byte := s.reg a

/-- The address after the opcode byte: of the immediate in a 2-byte instruction, of the next instruction after a 1-byte
one; it wraps (R13, R32). -/
def afterOpcode (s : State) : Byte := increment s.pc

/-- The address after a 2-byte instruction; it wraps (R14). -/
def afterImmediate (s : State) : Byte := increment (increment s.pc)

/-- `PC <- pc0 + 1`, the end of every 1-byte instruction but JMPR (R14). -/
def State.advance (s : State) : State := { s with pc := afterOpcode s }

end Sys2Proof.Machine
end

