-- ==== Sys2Proof/Machine/Alu.lean ====
section
/-! DEFINITION. The eight ALU-class instructions (spec/40_alu.md R66 to R74). -/

namespace Sys2Proof.Machine

/-- The ALU's outputs in an ALU-class instruction: input `a` is `x[A]`, input `b` is `x[B]`, carry-in the CARRY flag
(R74, D4, D5). -/
def aluOn (op : AluOp) (a b : Reg) (s : State) : AluOut :=
  alu op (s.reg a) (s.reg b) (aluCarryIn s.flags)

/-- The write-back: `x[B] <- c` unless the operation is CMP (R74). -/
def writeBack (op : AluOp) (b : Reg) (c : Byte) (s : State) : State :=
  if op = .cmp then s else s.setReg b c

/-- The common rule R74: every right-hand side read before any write; ACC and TMP as spec/45_fast_dispatch.md R129. -/
def aluClass (op : AluOp) (a b : Reg) (s : State) : Host.Outcome State Fault Refusal :=
  .next { (writeBack op b (aluOn op a b s).c s).advance with
    flags := nextFlags op (aluOn op a b s).f s.flags
    acc := (aluOn op a b s).c
    tmp := s.reg b }

/-- ADD: add with carry (R66). -/
def execAdd (a b : Reg) (s : State) : Host.Outcome State Fault Refusal := aluClass .add a b s

/-- SHL: shift left one place through carry (R67). -/
def execShl (a b : Reg) (s : State) : Host.Outcome State Fault Refusal := aluClass .shl a b s

/-- SHR: shift right one place through carry (R68). -/
def execShr (a b : Reg) (s : State) : Host.Outcome State Fault Refusal := aluClass .shr a b s

/-- NOT: bitwise complement (R69). -/
def execNot (a b : Reg) (s : State) : Host.Outcome State Fault Refusal := aluClass .not a b s

/-- AND: bitwise AND (R70). -/
def execAnd (a b : Reg) (s : State) : Host.Outcome State Fault Refusal := aluClass .and a b s

/-- OR: bitwise OR (R71). -/
def execOr (a b : Reg) (s : State) : Host.Outcome State Fault Refusal := aluClass .or a b s

/-- XOR: bitwise exclusive OR (R72). -/
def execXor (a b : Reg) (s : State) : Host.Outcome State Fault Refusal := aluClass .xor a b s

/-- CMP: compare, flags only (R73). -/
def execCmp (a b : Reg) (s : State) : Host.Outcome State Fault Refusal := aluClass .cmp a b s

end Sys2Proof.Machine
end

