-- ==== Sys2Proof/Machine/Control.lean ====
section
/-! DEFINITION. JMPR, JMP and JXXX (spec/43_control_transfer.md); latches as spec/45_fast_dispatch.md R129 says. -/

namespace Sys2Proof.Machine

/-- JMPR: `PC <- x[B]` (R110). -/
def execJmpr (b : Reg) (s : State) : Host.Outcome State Fault Refusal :=
  .next { s with pc := s.reg b }

/-- JMP: PC takes the second byte (R111). -/
def execJmp (addr : Byte) (s : State) : Host.Outcome State Fault Refusal :=
  .next { s with mar := afterOpcode s, pc := addr }

/-- JXXX: to the second byte if a selected flag is set, else past the instruction (R112). -/
def execJxxx (mask : FlagBits) (addr : Byte) (s : State) : Host.Outcome State Fault Refusal :=
  .next { s with
    mar := afterOpcode s
    acc := afterImmediate s
    pc := if jumpTaken s.flags mask then addr else afterImmediate s }

end Sys2Proof.Machine
end

