-- ==== Sys2Proof/Machine/Io.lean ====
section
/-! DEFINITION. CLF and the four IO instructions (spec/44_clf_io.md). -/

namespace Sys2Proof.Machine

/-- CLF: FLAGS take the flags output of `ALU(ADD, 0, 1, 0)`, which is 0 (R115). -/
def execClf (s : State) : Host.Outcome State Fault Refusal :=
  .next { s with flags := clearedFlags }.advance

/-- IND: input data (R120). -/
def execInd (b : Reg) (s : State) : Host.Outcome State Fault Refusal :=
  onNext (inputData b s) (fun t => .next t.advance)

/-- INA: `x[B] <- IOADDR` (R121). -/
def execIna (b : Reg) (s : State) : Host.Outcome State Fault Refusal :=
  .next (s.setReg b s.ioaddr).advance

/-- OUTD: output data (R122). -/
def execOutd (b : Reg) (s : State) : Host.Outcome State Fault Refusal :=
  onNext (outputData b s) (fun t => .next t.advance)

/-- OUTA: `IOADDR <- x[B]` (R123). -/
def execOuta (b : Reg) (s : State) : Host.Outcome State Fault Refusal :=
  .next { s with ioaddr := s.reg b }.advance

end Sys2Proof.Machine
end

