-- ==== Sys2Proof/Machine/LoadStore.lean ====
section
/-! DEFINITION. LD, ST and DATA (spec/42_load_store_data.md). A meaning takes the state after the opcode fetch (IR, MAR
and ACC loaded, PC still at the opcode byte: Machine/FastEngine.lean) to the next boundary, clock_cycle aside; the
latches are left as spec/45_fast_dispatch.md R129 says. -/

namespace Sys2Proof.Machine

/-- LD: `x[B] <- RAM[x[A]]` (R105). -/
def execLd (a b : Reg) (s : State) : Host.Outcome State Fault Refusal :=
  .next ({ s with mar := indirectAddress s a }.setReg b (s.readByte (indirectAddress s a))).advance

/-- ST: `RAM[x[A]] <- x[B]` (R106). -/
def execSt (a b : Reg) (s : State) : Host.Outcome State Fault Refusal :=
  .next ({ s with mar := indirectAddress s a }.writeByte (indirectAddress s a) (s.reg b)).advance

/-- DATA: `x[B] <- imm`, and PC passes over the immediate (R107). -/
def execData (b : Reg) (imm : Byte) (s : State) : Host.Outcome State Fault Refusal :=
  .next { s.setReg b imm with mar := afterOpcode s, acc := afterImmediate s, pc := afterImmediate s }

end Sys2Proof.Machine
end

