-- ==== Sys2Proof/Machine/Dispatch.lean ====
section
/-! DEFINITION. One arm per instruction: the handler table of the fast dispatch engine (spec/45_fast_dispatch.md R125,
R127). -/

namespace Sys2Proof.Machine

def exec (i : Instr) (s : State) : Host.Outcome State Fault Refusal :=
  match i with
  | .ld a b => Sys2Proof.Machine.execLd a b s
  | .st a b => Sys2Proof.Machine.execSt a b s
  | .data b imm => Sys2Proof.Machine.execData b imm s
  | .jmpr b => Sys2Proof.Machine.execJmpr b s
  | .jmp addr => Sys2Proof.Machine.execJmp addr s
  | .jxxx mask addr => Sys2Proof.Machine.execJxxx mask addr s
  | .clf => Sys2Proof.Machine.execClf s
  | .ind b => Sys2Proof.Machine.execInd b s
  | .ina b => Sys2Proof.Machine.execIna b s
  | .outd b => Sys2Proof.Machine.execOutd b s
  | .outa b => Sys2Proof.Machine.execOuta b s
  | .add a b => Sys2Proof.Machine.execAdd a b s
  | .shl a b => Sys2Proof.Machine.execShl a b s
  | .shr a b => Sys2Proof.Machine.execShr a b s
  | .not a b => Sys2Proof.Machine.execNot a b s
  | .and a b => Sys2Proof.Machine.execAnd a b s
  | .or a b => Sys2Proof.Machine.execOr a b s
  | .xor a b => Sys2Proof.Machine.execXor a b s
  | .cmp a b => Sys2Proof.Machine.execCmp a b s

end Sys2Proof.Machine
end

