-- ==== Sys2Proof/Machine/FastEngine.lean ====
section
/-! DEFINITION. The fast dispatch engine (spec/45_fast_dispatch.md R125 to R132) and the fetch of an instruction's
bytes. -/

namespace Sys2Proof.Machine

/-- The two bytes an instruction at PC can have: the second is at `(PC + 1) mod 256` (spec/20_memory.md R32, R33). -/
def State.fetchBytes (s : State) : List Byte := [s.readByte s.pc, s.readByte (afterOpcode s)]

/-- The instruction at PC (R126; spec/30_encoding.md R54). Every byte decodes; whether an unused second byte is read cannot
be observed (spec/20_memory.md R35). -/
def State.fetchInstr (s : State) : Instr := decodeOp (s.readByte s.pc) (s.readByte (afterOpcode s))

/-- The opcode fetch of one call: `IR <- RAM[PC]`, with MAR and ACC as the fetch positions leave them (R126, R129). PC
still holds the opcode's address: the meaning moves it. -/
def State.loadOpcode (s : State) : State :=
  { s with ir := s.readByte s.pc, mar := s.pc, acc := increment s.pc }

/-- The latches at the end of a fast call: as the meaning left them at the default FAST_LATCHES, free values at the
alternative (R129; R5). -/
def settleLatches (s : State) : State :=
  match Params.fastLatches with
  | .same => s
  | .any =>
    { s with
      ir := Config.freeLatch .ir s.clockCycle
      mar := Config.freeLatch .mar s.clockCycle
      acc := Config.freeLatch .acc s.clockCycle
      tmp := Config.freeLatch .tmp s.clockCycle }

/-- `step_instruction_fast()` (R126): any state is taken as a boundary, `running` is not tested, clock_cycle grows by 6. -/
def stepInstructionFast (s : State) : Host.Outcome State Fault Refusal :=
  onNext (exec s.fetchInstr s.loadOpcode) (fun t => .next ((settleLatches t).tick Config.fastInc))

/-- `n` calls of `step_instruction_fast()` (R132). -/
def runFast : Nat → State → Host.Outcome State Fault Refusal
  | 0, s => .next s
  | n + 1, s => onNext (stepInstructionFast s) (runFast n)

/-- A state with an opcode-table word's two bytes in RAM at PC and at PC + 1, and the driver calling the engine that takes
any state as a boundary, so that the next step runs that instruction. -/
def placeInstruction (s : State) (nbits w : Nat) : State :=
  { (s.writeByte (afterOpcode s) (BitVec.ofNat 8 (w % 2 ^ nbits / 256))).writeByte s.pc (BitVec.ofNat 8 (w % 2 ^ nbits)) with
    driver := .fast }

end Sys2Proof.Machine
end

