-- ==== Sys2Proof/Machine/MicroCycle.lean ====
section
/-! DEFINITION. The micro-cycle engine: the seven-position state machine with its decoder (spec/41_microcycle_engine.md
R90 to R104). Positions 3 to 5 follow the micro-schedule of R98. -/

namespace Sys2Proof.Machine

/-! Fetch (R91, R92, R93). -/

/-- Position 0: `MAR <- PC`, `ACC <- PC + 1` by the ALU, flags discarded (R91). -/
def position0 (s : State) : Host.Outcome State Fault Refusal :=
  .next { s with mar := s.pc, acc := increment s.pc }

/-- Position 1: `IR <- RAM[MAR]` (R92). -/
def position1 (s : State) : Host.Outcome State Fault Refusal :=
  .next { s with ir := s.readByte s.mar }

/-- Position 2: `PC <- ACC` (R93). -/
def position2 (s : State) : Host.Outcome State Fault Refusal :=
  .next { s with pc := s.acc }

/-! Execute (R94, R98). -/

/-- Position 3 of INA (R121; R5 MICRO_INA). -/
def microReadback (b : Reg) (s : State) : State :=
  match Params.microIna with
  | .readback => s.setReg b s.ioaddr
  | .nop => s

/-- Position 3 of the IO class, by submode (R98, rows IND to OUTA). -/
def ioPosition3 (sub : IoSubmode) (b : Reg) (s : State) : Host.Outcome State Fault Refusal :=
  match sub with
  | .ind => inputData b s
  | .ina => .next (microReadback b s)
  | .outd => outputData b s
  | .outa => .next { s with ioaddr := s.reg b }

/-- Position 3 (R98). -/
def position3 (s : State) : Host.Outcome State Fault Refusal :=
  match opClass s.ir with
  | .ld => .next { s with mar := s.reg (regA s.ir) }
  | .st => .next { s with mar := s.reg (regA s.ir) }
  | .data => .next { s with mar := s.pc, acc := increment s.pc }
  | .jmpr => .next { s with pc := s.reg (regB s.ir) }
  | .jmp => .next { s with mar := s.pc }
  | .jxxx => .next { s with mar := s.pc, acc := increment s.pc }
  | .clf => .next { s with flags := clearedFlags }
  | .io => ioPosition3 (ioSub s.ir) (ioReg s.ir) s
  | .alu _ => .next { s with tmp := s.reg (regB s.ir) }

/-- The ALU's outputs at position 4: `a` is `x[A]`, `b` the TMP latch (R74, R98). -/
def aluOnLatches (op : AluOp) (s : State) : AluOut :=
  alu op (s.reg (regA s.ir)) s.tmp (aluCarryIn s.flags)

/-- Position 4 (R98). -/
def position4 (s : State) : Host.Outcome State Fault Refusal :=
  match opClass s.ir with
  | .ld => .next (s.setReg (regB s.ir) (s.readByte s.mar))
  | .st => .next (s.writeByte s.mar (s.reg (regB s.ir)))
  | .data => .next (s.setReg (regB s.ir) (s.readByte s.mar))
  | .jmpr => .next s
  | .jmp => .next { s with pc := s.readByte s.mar }
  | .jxxx => .next { s with pc := s.acc }
  | .clf => .next s
  | .io => .next s
  | .alu op => .next { s with acc := (aluOnLatches op s).c, flags := nextFlags op (aluOnLatches op s).f s.flags }

/-- Position 5 (R98). -/
def position5 (s : State) : Host.Outcome State Fault Refusal :=
  match opClass s.ir with
  | .ld => .next s
  | .st => .next s
  | .data => .next { s with pc := s.acc }
  | .jmpr => .next s
  | .jmp => .next s
  | .jxxx => .next (if jumpTaken s.flags (fieldMask s.ir) then { s with pc := s.readByte s.mar } else s)
  | .clf => .next s
  | .io => .next s
  | .alu op => .next (if op = .cmp then s else s.setReg (regB s.ir) s.acc)

/-- Position 6: idle (R95). -/
def position6 (s : State) : Host.Outcome State Fault Refusal := .next s

/-- The action of a position. -/
def positionAction (p : Nat) (s : State) : Host.Outcome State Fault Refusal :=
  match p with
  | 0 => position0 s
  | 1 => position1 s
  | 2 => position2 s
  | 3 => position3 s
  | 4 => position4 s
  | 5 => position5 s
  | _ => position6 s

/-- `step_cycle()` (R96): the position's action, then clock_cycle grows by 1; `running` is not tested (R104). -/
def stepCycle (s : State) : Host.Outcome State Fault Refusal :=
  onNext (positionAction s.position s) (fun t => .next (t.tick Config.cycleInc))

/-- `n` calls of `step_cycle()`. -/
def runCycles : Nat → State → Host.Outcome State Fault Refusal
  | 0, s => .next s
  | n + 1, s => onNext (stepCycle s) (runCycles n)

/-- Calls of `step_cycle()` until `clock_cycle mod 7 = 0`, at most `n`. -/
def cyclesToBoundary : Nat → State → Host.Outcome State Fault Refusal
  | 0, s => .next s
  | n + 1, s => onNext (stepCycle s) (fun t => if t.position = 0 then .next t else cyclesToBoundary n t)

/-- `step_instruction()` (R97): seven calls suffice, a position being below 7. -/
def stepInstruction (s : State) : Host.Outcome State Fault Refusal := cyclesToBoundary Config.positions s

/-- `n` calls of `step_instruction()` (R132). -/
def runInstructions : Nat → State → Host.Outcome State Fault Refusal
  | 0, s => .next s
  | n + 1, s => onNext (stepInstruction s) (runInstructions n)

/-! The decoder's outputs as hardware (R102). -/

/-- `jump_taken` (R102). -/
def decoderJumpTaken (ir : Byte) (flags : FlagBits) : Bool :=
  opClass ir == .jxxx && jumpTaken flags (fieldMask ir)

/-- `writes_reg_B`: LD, DATA, INA, IND with a handler registered, the ALU class but CMP (R102). -/
def decoderWritesB (s : State) : Bool :=
  match opClass s.ir with
  | .ld | .data => true
  | .io =>
    match ioSub s.ir with
    | .ind => s.inHandlers.registered s.ioaddr
    | .ina => true
    | .outd | .outa => false
  | .alu op => op != .cmp
  | .st | .jmpr | .jmp | .jxxx | .clf => false

end Sys2Proof.Machine
end

