-- ==== Sys2Proof/Machine/Step.lean ====
section
/-! DEFINITION. One step of the machine: the step operation the driver calls (spec/70_reset_and_hazards.md R162 (4)). -/

namespace Sys2Proof.Machine

/-- One call of the driver's step operation. -/
def step (s : State) : Host.Outcome State Fault Refusal :=
  match s.driver with
  | .cycle => stepCycle s
  | .instruction => stepInstruction s
  | .fast => stepInstructionFast s

/-- The state whose next step fetches and runs the given opcode-table word. -/
def State.withFetchWord (s : State) (nbits w : Nat) : State := placeInstruction s nbits w

end Sys2Proof.Machine
end

