-- ==== Sys2Proof/Machine/Boot.lean ====
section
/-! DEFINITION. What the driver does outside the step operations: `reset()`, handler registration and the image load
(spec/70_reset_and_hazards.md R160 to R163). -/

namespace Sys2Proof.Machine

/-- `reset()`, callable at any time (R160, R161): every field of the spec's takes its reset value; the outside (the
environment's answers, the traffic seen, the driver's choice of call) is not the core's to reset. -/
def State.resetCall (s : State) : State :=
  { State.reset with replies := s.replies, traffic := s.traffic, driver := s.driver }

/-- Registration of an input handler in slot `p` (R162). -/
def State.registerInput (s : State) (p : Byte) : State := { s with inHandlers := s.inHandlers.register p }

/-- Registration of an output handler in slot `p` (R162). -/
def State.registerOutput (s : State) (p : Byte) : State := { s with outHandlers := s.outHandlers.register p }

/-- RAM with the bytes of an image written from address `at` on. -/
def Memory.writeFrom : Memory → Nat → List Byte → Memory
  | m, _, [] => m
  | m, at', b :: rest => Memory.writeFrom (m.write at' b) (at' + 1) rest

/-- The image load: byte i to RAM[i], the rest of RAM zero, bytes past 256 dropped (R163). -/
def State.loadImage (s : State) (image : List Byte) : State :=
  { s with ram := Memory.writeFrom [] 0 (image.take Config.ramSize) }

/-- The boot sequence of R162: reset, handlers registered, image loaded. -/
def State.boot (ins outs image : List Byte) : State :=
  (outs.foldl State.registerOutput (ins.foldl State.registerInput State.reset)).loadImage image

end Sys2Proof.Machine
end

