-- ==== Sys2Proof/Machine/Driver.lean ====
section
/-! DEFINITION. The driver's loop (spec/60_exceptions.md R150; spec/70_reset_and_hazards.md R165 (c)): it steps while the
machine runs and stops at the first instruction boundary where `running` is false. -/

namespace Sys2Proof.Machine

/-- An instruction boundary: position 0 under the micro-cycle engine, any state between two calls of the fast engine
(spec/00_scope.md R9). -/
def State.atBoundary (s : State) : Bool :=
  match s.driver with
  | .cycle | .instruction => s.position == 0
  | .fast => true

/-- The run has ended: a boundary with `running = false` (R150). -/
def State.ended (s : State) : Bool := s.atBoundary && !s.running

/-- At most `n` calls of the driver's step operation, none once the run has ended. -/
def drive : Nat → State → Host.Outcome State Fault Refusal
  | 0, s => .next s
  | n + 1, s => if s.ended then .next s else onNext (step s) (drive n)

end Sys2Proof.Machine
end

