-- ==== Sys2Proof/Safety.lean ====
section
/-! DEFINITION. What counts as a good state and a safe use, and the terms the statements are written in. -/

namespace Sys2Proof.Machine

/-- The invariant: RAM and the two handler tables in canonical form (every address below 256), and FLAGS never with
A_LARGER and EQUAL both set, which the ALU cannot produce (spec/10_state.md R28; spec/40_alu.md R61, R78 (4);
spec/43_control_transfer.md R114). -/
structure State.Inv (s : State) : Prop where
  ram : s.ram.wf
  inHandlers : s.inHandlers.wf
  outHandlers : s.outHandlers.wf
  flags : ¬ (s.flags.getLsbD 2 = true ∧ s.flags.getLsbD 1 = true)

/-- The micro-cycle engine may be called: its position is 0, or 6, where it idles once into step
(spec/70_reset_and_hazards.md R170). -/
abbrev State.microReady (s : State) : Prop := s.position = 0 ∨ s.position = 6

/-- The two states agree on every field but clock_cycle: the contract's comparison (spec/45_fast_dispatch.md R130,
FAST_LATCHES = same). -/
abbrev State.sameButClock (s t : State) : Prop := { s with clockCycle := t.clockCycle } = t

/-- The two states agree on every field but the four latches (spec/10_state.md R24). -/
abbrev State.sameButLatches (s t : State) : Prop :=
  { s with ir := t.ir, mar := t.mar, acc := t.acc, tmp := t.tmp } = t

/-- IND or OUTD with a registered handler that never returns: the instruction that hangs (spec/60_exceptions.md R155). -/
def blockedOn (i : Instr) (s : State) : Prop :=
  match i with
  | .ind _ => s.inHandlers.registered s.ioaddr = true ∧ s.replyTo (.input s.ioaddr) = .neverReturns
  | .outd b => s.outHandlers.registered s.ioaddr = true ∧ s.replyTo (.output s.ioaddr (s.reg b)) = .neverReturns
  | .ld _ _ | .st _ _ | .data _ _ | .jmpr _ | .jmp _ | .jxxx _ _ | .clf | .ina _ | .outa _ => False
  | .add _ _ | .shl _ _ | .shr _ _ | .not _ _ | .and _ _ | .or _ _ | .xor _ _ | .cmp _ _ => False

/-- The port call an instruction makes from a state: IND and OUTD with a handler registered at IOADDR, and no other
(spec/44_clf_io.md R119, R120, R122). -/
def portCallOf (i : Instr) (s : State) : Option PortCall :=
  match i with
  | .ind _ => if s.inHandlers.registered s.ioaddr then some (.input s.ioaddr) else none
  | .outd b => if s.outHandlers.registered s.ioaddr then some (.output s.ioaddr (s.reg b)) else none
  | .ld _ _ | .st _ _ | .data _ _ | .jmpr _ | .jmp _ | .jxxx _ _ | .clf | .ina _ | .outa _ => none
  | .add _ _ | .shl _ _ | .shr _ _ | .not _ _ | .and _ _ | .or _ _ | .xor _ _ | .cmp _ _ => none

/-- The instruction whose position 3 is still to come before the next boundary of the micro-cycle engine, by the position:
the one at PC, the one MAR points at, the one in IR, or none from position 4 on. The second byte is of no matter to a port
call (spec/41_microcycle_engine.md R91 to R94, R98). -/
def State.toExecute (s : State) : Option Instr :=
  match s.position with
  | 0 => some s.fetchInstr
  | 1 => some (decodeOp (s.readByte s.mar) 0#8)
  | 2 | 3 => some (decodeOp s.ir 0#8)
  | _ => none

/-- The state with `running` cleared. -/
abbrev State.halted (s : State) : State := { s with running := false }

/-- The environment's reply to a call, if there is one, is the same with `running` cleared: a reply may depend on `running`
(spec/44_clf_io.md R118), the core's own work may not. -/
def State.sameReplyHalted (s : State) (call : Option PortCall) : Prop :=
  ∀ c : PortCall, call = some c → s.halted.replyTo c = s.replyTo c

/-- What a handler wrote to a register, if anything (spec/44_clf_io.md R118 (b)). -/
def handlerWrote (w : RegisterWrites) : Reg → Option Byte
  | .ra => w.ra
  | .rb => w.rb
  | .rc => w.rc
  | .rd => w.rd

/-- Every opcode byte of a class (bits 7-4) decodes, with the byte after it, to the instruction given; and the class is
of two bytes or of one (spec/30_encoding.md R45, R48, R54). -/
def classDecodesTo (cls : Nat) (twoByte : Bool) (instr : Byte → Byte → Instr) : Prop :=
  ∀ w imm : Byte, w.toNat / 16 = cls → decodeOp w imm = instr w imm ∧ isTwoByte w = twoByte

/-- The same of the IO class 7 with submode `sub` in bits 3-2 (spec/30_encoding.md R51). -/
def submodeDecodesTo (sub : Nat) (instr : Reg → Instr) : Prop :=
  ∀ w imm : Byte, w.toNat / 4 = 28 + sub → decodeOp w imm = instr (regB w) ∧ isTwoByte w = false

end Sys2Proof.Machine
end

