-- ==== Sys2Proof/Certificates/Slice0/Obligations.lean ====
section
/-! DEFINITION. The statements for the provers. FLAGS bits are read by their numbers of spec/10_state.md R15: bit 0 ZERO,
bit 1 EQUAL, bit 2 A_LARGER, bit 3 CARRY. An equation `t = { s with … }` is a frame: every field of the state not named
in it (registers, flags, RAM, IOADDR, latches, clock, `running`, handler tables, traffic) is as before. Where a clause
rests on the spec's own decisions and not on its source: the flags' bit numbers D1 (log entry 6); what happens at
positions 3, 4 and 5, D9 (log entry 13); MAR, ACC and TMP after an instruction, D9 and D11 (log entry 11); the IO fields
D3 (log entry 7); the carry-in D4 (log entry 8). -/

open Sys2Proof Sys2Proof.Machine

/-! ## Encoding -/

/-- Decoding an instruction's canonical bytes gives the instruction back and leaves the bytes after them
(spec/30_encoding.md R47, R48, R54). -/
def Obligations.DecodeOfEncodeIsTheInstruction : Prop :=
  ∀ (i : Instr) (rest : List Byte), i.wellFormed = true → decode (encode i ++ rest) = .ok (i, rest)

/-- Encoding what an opcode byte decodes to gives that byte back with its unused bits cleared, and the second byte exactly
when the class has one (spec/30_encoding.md R45, R47, R53). -/
def Obligations.EncodeOfDecodeClearsOnlyUnusedBits : Prop :=
  ∀ w imm : Byte,
    encode (decodeOp w imm) = if isTwoByte w then [w &&& ~~~unusedBits w, imm] else [w &&& ~~~unusedBits w]

/-- The opcode/mnemonic table's round trip, both ways (R59). -/
def Obligations.MnemonicTableRoundTrip : Prop :=
  (∀ (c : BitVec 4) (a b : BitVec 2),
    (mnemonicTable (opcodeByte c a b)).opClass = c ∧ (mnemonicTable (opcodeByte c a b)).a = a ∧
      (mnemonicTable (opcodeByte c a b)).b = b) ∧
  (∀ w : Byte, opcodeByte (mnemonicTable w).opClass (mnemonicTable w).a (mnemonicTable w).b = w)

/-- The decode function, arm by arm, and the 2-byte classes (R54). The fields of the IO arm are the spec's own decision D3
(log entry 7), the mask of JXXX its decision D2 (log entry 24), and that the bits a class does not use are ignored is its decision D10 (log entry 2). Which operation a code
of bits 6-4 names is stated by the instructions ADD to CMP below, each for its own class. -/
def Obligations.DecodeFunctionByClass : Prop :=
  classDecodesTo 0 false (fun w _ => .ld (regA w) (regB w)) ∧
  classDecodesTo 1 false (fun w _ => .st (regA w) (regB w)) ∧
  classDecodesTo 2 true (fun w imm => .data (regB w) imm) ∧
  classDecodesTo 3 false (fun w _ => .jmpr (regB w)) ∧
  classDecodesTo 4 true (fun _ imm => .jmp imm) ∧
  classDecodesTo 5 true (fun w imm => .jxxx (fieldMask w) imm) ∧
  classDecodesTo 6 false (fun _ _ => .clf) ∧
  submodeDecodesTo 0 .ind ∧ submodeDecodesTo 1 .ina ∧ submodeDecodesTo 2 .outd ∧ submodeDecodesTo 3 .outa ∧
  (∀ w imm : Byte, 8 ≤ w.toNat / 16 →
    decodeOp w imm = aluInstr (aluOpOfCode (fieldAluOp w)) (regA w) (regB w) ∧ isTwoByte w = false) ∧
  (∀ w : Byte, (indexOfReg (regA w)).toNat = w.toNat / 4 % 4 ∧ (indexOfReg (regB w)).toNat = w.toNat % 4 ∧
    (fieldMask w).toNat = w.toNat % 16 ∧ (fieldAluOp w).toNat = w.toNat / 16 % 8)

/-- No byte string that holds a whole instruction is rejected, the length is the class's, and the bits an instruction
does not use change nothing (spec/30_encoding.md R45, R53). -/
def Obligations.EveryByteIsAnInstruction : Prop :=
  (∀ (w imm : Byte) (rest : List Byte),
    decode (w :: imm :: rest) = .ok (decodeOp w imm, if isTwoByte w then rest else imm :: rest)) ∧
  (∀ w imm imm' : Byte, isTwoByte w = false → decodeOp w imm = decodeOp w imm') ∧
  (∀ w imm : Byte, decodeOp (w &&& ~~~unusedBits w) imm = decodeOp w imm)

/-- Words written out from R48, R51 and R56 decode to their instructions. -/
def Obligations.WrittenWordsDecode : Prop :=
  decodeTableWord 8 0x09 = some (.ld .rc .rb) ∧ decodeTableWord 8 0x13 = some (.st .ra .rd) ∧
  decodeTableWord 16 0x0520 = some (.data .ra 5#8) ∧ decodeTableWord 8 0x31 = some (.jmpr .rb) ∧
  decodeTableWord 16 0xFF40 = some (.jmp 255#8) ∧ decodeTableWord 16 0x2051 = some (.jxxx 1#4 0x20#8) ∧
  decodeTableWord 8 0x60 = some .clf ∧ decodeTableWord 8 0x71 = some (.ind .rb) ∧
  decodeTableWord 8 0x7F = some (.outa .rd) ∧ decodeTableWord 8 0x8E = some (.add .rd .rc) ∧
  decodeTableWord 8 0xF1 = some (.cmp .ra .rb)

/-! ## Reset, boot and the memory -/

/-- Every field right after reset (R29). -/
def Obligations.ResetValuesOfEveryField : Prop :=
  (∀ r : Reg, State.reset.reg r = 0#8) ∧ State.reset.pc = 0#8 ∧ State.reset.ir = 0#8 ∧ State.reset.mar = 0#8 ∧
  State.reset.acc = 0#8 ∧ State.reset.tmp = 0#8 ∧ State.reset.flags = 0#4 ∧ State.reset.ioaddr = 0#8 ∧
  State.reset.clockCycle = 0 ∧ State.reset.position = 0 ∧ (∀ a : Byte, State.reset.readByte a = 0#8) ∧
  State.reset.running = true ∧
  (∀ p : Byte, State.reset.inHandlers.registered p = false ∧ State.reset.outHandlers.registered p = false)

/-- `reset()` in mid-run gives every field of the core its reset value, whatever the state before. That it may be called
then is the spec's own decision D20 (R161); that the model's own three fields are kept is the model's choice (log
entry 18). -/
def Obligations.ResetCallIsTotal : Prop :=
  ∀ s : State,
    s.resetCall = { State.reset with replies := s.replies, traffic := s.traffic, driver := s.driver } ∧
    (∀ a : Byte, s.resetCall.readByte a = 0#8) ∧
    (∀ p : Byte, s.resetCall.inHandlers.registered p = false ∧ s.resetCall.outHandlers.registered p = false)

/-- Registering a handler fills its slot and no other, changes nothing else, and keeps the tables' canonical form
(spec/70_reset_and_hazards.md R162; spec/44_clf_io.md R119). -/
def Obligations.RegistrationFillsOneSlot : Prop :=
  ∀ (s : State) (p q : Byte),
    (s.registerInput p).inHandlers.registered q = (decide (q = p) || s.inHandlers.registered q) ∧
    (s.registerOutput p).outHandlers.registered q = (decide (q = p) || s.outHandlers.registered q) ∧
    s.registerInput p = { s with inHandlers := (s.registerInput p).inHandlers } ∧
    s.registerOutput p = { s with outHandlers := (s.registerOutput p).outHandlers } ∧
    (s.Inv → (s.registerInput p).Inv ∧ (s.registerOutput p).Inv)

/-- The invariant holds right after reset. -/
def Obligations.ResetMeetsTheInvariant : Prop := State.reset.Inv

/-- The RAM image: byte i to RAM[i], the rest zero, bytes from 256 on dropped; handlers and every other field as they
were (R163). -/
def Obligations.ImageLoadFillsRam : Prop :=
  ∀ (s : State) (image : List Byte),
    (∀ a : Byte, (s.loadImage image).readByte a = image.getD a.toNat 0#8) ∧
    (s.loadImage image).ram.wf ∧ s.loadImage image = { s with ram := (s.loadImage image).ram }

/-- `MemRead` after `MemWrite`, and the frame of `MemWrite` (R31). -/
def Obligations.WriteThenReadRam : Prop :=
  ∀ (s : State) (a v b : Byte),
    (s.writeByte a v).readByte b = (if b = a then v else s.readByte b) ∧
    s.writeByte a v = { s with ram := (s.writeByte a v).ram } ∧ (s.ram.wf → (s.writeByte a v).ram.wf)

/-! ## The step -/

/-- A step by the fast engine runs the decoded instruction: opcode fetched into IR, the instruction's meaning, clock_cycle
plus 6 (R126, R128). -/
def Obligations.FastStepRunsTheDecodedInstruction : Prop :=
  ∀ (s : State) (i : Instr) (rest : List Byte), s.driver = .fast → decode s.fetchBytes = .ok (i, rest) →
    i.wellFormed = true →
    step s = onNext (exec i { s with ir := s.readByte s.pc, mar := s.pc, acc := s.pc + 1#8 })
      (fun t => .next { t with clockCycle := t.clockCycle + 6 })

/-- A step by instruction of the micro-cycle engine, from a boundary, runs the decoded instruction with clock_cycle plus 7;
and so do seven single steps (R97, R98, R101). -/
def Obligations.MicroStepsRunTheDecodedInstruction : Prop :=
  ∀ (s : State) (i : Instr) (rest : List Byte), s.position = 0 → decode s.fetchBytes = .ok (i, rest) →
    i.wellFormed = true →
    (s.driver = .instruction →
      step s = onNext (exec i { s with ir := s.readByte s.pc, mar := s.pc, acc := s.pc + 1#8 })
        (fun t => .next { t with clockCycle := t.clockCycle + 7 })) ∧
    runCycles 7 s = onNext (exec i { s with ir := s.readByte s.pc, mar := s.pc, acc := s.pc + 1#8 })
      (fun t => .next { t with clockCycle := t.clockCycle + 7 })

/-- Every step keeps the invariant, whichever engine the driver calls and wherever in an instruction the micro-cycle
engine stands (R28, R78 (4)). -/
def Obligations.StepKeepsTheInvariant : Prop :=
  ∀ s t : State, s.Inv → step s = .next t → t.Inv

/-- A step stops only where the driver's call runs into a handler that never returns, and never by refusal: the core
raises nothing (R140, R155). A fast call stops on the instruction at PC; a single micro-cycle at position 3 on the one in
IR; a step by instruction on the one whose position 3 is still to come, and from position 4 on it never stops. The fault is
the model's name for the hang (log entry 16); that IND and OUTD call their handlers at position 3 is the spec's own decision
D9 (log entry 13). -/
def Obligations.StepStopsOnlyOnABlockedHandler : Prop :=
  (∀ (s : State) (r : Refusal), step s ≠ .refused r) ∧
  (∀ (s : State) (r : Fault), s.driver = .fast → (step s = .fault r ↔ blockedOn s.fetchInstr s)) ∧
  (∀ (s : State) (r : Fault), s.driver = .cycle →
    (step s = .fault r ↔ s.position = 3 ∧ blockedOn (decodeOp s.ir 0#8) s)) ∧
  (∀ (s : State) (r : Fault), s.driver = .instruction →
    (step s = .fault r ↔ ∃ i, s.toExecute = some i ∧ blockedOn i s))

/-- An instruction stops exactly when it hangs on its handler, and no instruction is refused (R140, R155). -/
def Obligations.ExecStopsExactlyWhenBlocked : Prop :=
  ∀ (i : Instr) (s : State),
    (∀ r : Refusal, exec i s ≠ .refused r) ∧
    (blockedOn i s → exec i s = .fault .handlerNeverReturns) ∧
    (¬ blockedOn i s → ∃ t, exec i s = .next t)

/-! ## The two engines -/

/-- The equivalence contract (R130): from a boundary, seven micro-cycles and one fast call leave every field the same,
port traffic and latches included, but clock_cycle, 7 more and 6 more. Agreement on IR, MAR, ACC and TMP is the spec's own
decision D11, FAST_LATCHES = same (log entry 11). The premise leaves out a handler that never returns: that has no later
state to compare, and the model's fault is its name (log entry 16). -/
def Obligations.EnginesAgreeOnOneInstruction : Prop :=
  ∀ s : State, s.clockCycle % 7 = 0 → ¬ blockedOn s.fetchInstr s →
    ∃ m f, runCycles 7 s = .next m ∧ stepInstructionFast s = .next f ∧
      f.sameButClock m ∧ m.clockCycle = s.clockCycle + 7 ∧ f.clockCycle = s.clockCycle + 6

/-- From a boundary, an instruction whose handler never returns hangs under both engines; the fault is the model's name for
the hang (log entry 16). -/
def Obligations.BothEnginesHangOnTheSameHandler : Prop :=
  ∀ s : State, s.clockCycle % 7 = 0 →
    (runCycles 7 s = .fault .handlerNeverReturns ↔ blockedOn s.fetchInstr s) ∧
    (stepInstructionFast s = .fault .handlerNeverReturns ↔ blockedOn s.fetchInstr s)

/-- The contract over n instructions: n fast calls, 7n micro-cycles and n calls of `step_instruction()` (R132,
derived by the spec from R130). -/
def Obligations.EnginesAgreeOnManyInstructions : Prop :=
  ∀ (n : Nat) (s : State), s.clockCycle % 7 = 0 →
    (∀ f, runFast n s = .next f → ∃ m, runCycles (7 * n) s = .next m ∧ runInstructions n s = .next m ∧
      f.sameButClock m ∧ f.clockCycle = s.clockCycle + 6 * n ∧ m.clockCycle = s.clockCycle + 7 * n) ∧
    (∀ m, runCycles (7 * n) s = .next m → ∃ f, runFast n s = .next f)

/-- `step_instruction()` makes `7 - pos` calls of `step_cycle()`, seven from a boundary, and ends at a boundary (R97). -/
def Obligations.StepInstructionFinishesTheInstruction : Prop :=
  ∀ s : State, stepInstruction s = runCycles (7 - s.clockCycle % 7) s ∧
    (∀ t, stepInstruction s = .next t →
      t.clockCycle = s.clockCycle + (7 - s.clockCycle % 7) ∧ t.clockCycle % 7 = 0)

/-- One micro-cycle call adds 1 to clock_cycle and one fast call adds 6, whatever they do; nothing else is added (R128; that
the counter never wraps is the spec's own decision D12, log entry 12). -/
def Obligations.ClockGrowsByOneOrSix : Prop :=
  (∀ s t : State, stepCycle s = .next t → t.clockCycle = s.clockCycle + 1) ∧
  (∀ s t : State, stepInstructionFast s = .next t → t.clockCycle = s.clockCycle + 6)

/-- The fetch positions and the idle position, exactly (R91, R92, R93, R95): position 0 loads MAR and ACC and leaves FLAGS,
position 1 loads IR, position 2 loads PC, position 6 only counts. -/
def Obligations.FetchAndIdlePositions : Prop :=
  ∀ s : State,
    (s.clockCycle % 7 = 0 →
      stepCycle s = .next { s with mar := s.pc, acc := s.pc + 1#8, clockCycle := s.clockCycle + 1 }) ∧
    (s.clockCycle % 7 = 1 →
      stepCycle s = .next { s with ir := s.readByte s.mar, clockCycle := s.clockCycle + 1 }) ∧
    (s.clockCycle % 7 = 2 → stepCycle s = .next { s with pc := s.acc, clockCycle := s.clockCycle + 1 }) ∧
    (s.clockCycle % 7 = 6 → stepCycle s = .next { s with clockCycle := s.clockCycle + 1 })

/-- The net effect of the fetch (R100, derived by the spec from R91 to R93). -/
def Obligations.NetEffectOfTheFetch : Prop :=
  ∀ s : State, s.clockCycle % 7 = 0 →
    runCycles 3 s = .next { s with
      mar := s.pc, ir := s.readByte s.pc, acc := s.pc + 1#8, pc := s.pc + 1#8, clockCycle := s.clockCycle + 3 }

/-- What the micro-cycle engine does at position 3, row by row of the schedule, with the rows of IND and OUTD by their
handlers' transfer (R98, the spec's own decision D9, log entry 13). -/
def Obligations.MicroScheduleOfPositionThree : Prop :=
  ∀ s : State,
    (s.ir.toNat / 16 ≤ 1 → position3 s = .next { s with mar := s.reg (regA s.ir) }) ∧
    (s.ir.toNat / 16 = 2 ∨ s.ir.toNat / 16 = 5 → position3 s = .next { s with mar := s.pc, acc := s.pc + 1#8 }) ∧
    (s.ir.toNat / 16 = 3 → position3 s = .next { s with pc := s.reg (regB s.ir) }) ∧
    (s.ir.toNat / 16 = 4 → position3 s = .next { s with mar := s.pc }) ∧
    (s.ir.toNat / 16 = 6 → position3 s = .next { s with flags := 0#4 }) ∧
    (s.ir.toNat / 4 = 28 → position3 s = inputData (regB s.ir) s) ∧
    (s.ir.toNat / 4 = 29 → position3 s = .next (s.setReg (regB s.ir) s.ioaddr)) ∧
    (s.ir.toNat / 4 = 30 → position3 s = outputData (regB s.ir) s) ∧
    (s.ir.toNat / 4 = 31 → position3 s = .next { s with ioaddr := s.reg (regB s.ir) }) ∧
    (8 ≤ s.ir.toNat / 16 → position3 s = .next { s with tmp := s.reg (regB s.ir) })

/-- What the micro-cycle engine does at positions 4 and 5, row by row of the schedule (R98, the spec's own decision D9,
log entry 13). -/
def Obligations.MicroScheduleOfPositionsFourAndFive : Prop :=
  ∀ s : State,
    (s.ir.toNat / 16 = 0 ∨ s.ir.toNat / 16 = 2 → position4 s = .next (s.setReg (regB s.ir) (s.readByte s.mar))) ∧
    (s.ir.toNat / 16 = 1 → position4 s = .next (s.writeByte s.mar (s.reg (regB s.ir)))) ∧
    (s.ir.toNat / 16 = 3 ∨ s.ir.toNat / 16 = 6 ∨ s.ir.toNat / 16 = 7 →
      position4 s = .next s ∧ position5 s = .next s) ∧
    (s.ir.toNat / 16 = 4 → position4 s = .next { s with pc := s.readByte s.mar } ∧ position5 s = .next s) ∧
    (s.ir.toNat / 16 = 5 → position4 s = .next { s with pc := s.acc } ∧
      position5 s = .next { s with
        pc := if s.flags &&& s.ir.extractLsb' 0 4 ≠ 0#4 then s.readByte s.mar else s.pc }) ∧
    (8 ≤ s.ir.toNat / 16 →
      position4 s = .next { s with
        acc := (alu (aluOpOfCode (s.ir.extractLsb' 4 3)) (s.reg (regA s.ir)) s.tmp (s.flags.getLsbD 3)).c
        flags := (alu (aluOpOfCode (s.ir.extractLsb' 4 3)) (s.reg (regA s.ir)) s.tmp (s.flags.getLsbD 3)).f }) ∧
    (s.ir.toNat / 16 ≤ 1 ∨ s.ir.toNat / 16 = 15 → position5 s = .next s) ∧
    (s.ir.toNat / 16 = 2 → position5 s = .next { s with pc := s.acc }) ∧
    (8 ≤ s.ir.toNat / 16 ∧ s.ir.toNat / 16 ≤ 14 → position5 s = .next (s.setReg (regB s.ir) s.acc))

/-- The hazard of mixing the engines: the position after k fast calls from a boundary, and that a micro-cycle call at
position 6 then only idles into step (R170, the spec's own decision D19, log entry 14). -/
def Obligations.FastCallsMoveThePositionBack : Prop :=
  ∀ (k : Nat) (s t : State), s.clockCycle % 7 = 0 → runFast k s = .next t →
    t.position = (7 - k % 7) % 7 ∧
    (k % 7 = 1 → stepCycle t = .next { t with clockCycle := t.clockCycle + 1 } ∧ (t.clockCycle + 1) % 7 = 0)

/-- The end of a run: once the driver's loop has reached a boundary with `running` false it makes no further call, and it
leaves every other state, one with `running` false in mid-instruction among them, by a step (R150, the spec's own decision
D13, log entry 15). -/
def Obligations.RunEndsAtTheFirstHaltedBoundary : Prop :=
  ∀ (n m : Nat) (s t : State),
    (drive n s = .next t → t.ended = true → drive (n + m) s = .next t) ∧
    (s.atBoundary = true → s.running = false → drive n s = .next s) ∧
    (s.ended = false → drive (n + 1) s = onNext (step s) (drive n))

/-! ## The ALU -/

/-- The whole ALU function in the numbers of R65, with its flags output (the carry of NOT and CMP and the byte of CMP are
the spec's own decisions D7, D8). -/
def Obligations.AluFunctionIsAsSpecified : Prop :=
  ∀ (a b : Byte) (cin : Bool),
    (alu .add a b cin).c.toNat = (a.toNat + b.toNat + cin.toNat) % 256 ∧
    (alu .shl a b cin).c.toNat = (a.toNat <<< 1 ||| cin.toNat) % 256 ∧
    (alu .shr a b cin).c.toNat = (a.toNat >>> 1 ||| cin.toNat <<< 7) ∧
    (alu .not a b cin).c.toNat = 255 - a.toNat ∧
    (alu .and a b cin).c = a &&& b ∧ (alu .or a b cin).c = a ||| b ∧ (alu .xor a b cin).c = a ^^^ b ∧
    (alu .cmp a b cin).c = 0#8 ∧
    (∀ op : AluOp, (alu op a b cin).f.toNat =
      8 * (match op with
        | .add => decide (a.toNat + b.toNat + cin.toNat > 255)
        | .shl => a.getLsbD 7
        | .shr => a.getLsbD 0
        | .not | .and | .or | .xor | .cmp => false).toNat +
      4 * (decide (a.toNat > b.toNat)).toNat + 2 * (decide (a = b)).toNat +
      (decide (op ≠ .cmp ∧ (alu op a b cin).c = 0#8)).toNat)

/-- The properties of R78, derived by the spec from R65: A_LARGER and EQUAL exclude each other, ZERO is EQUAL for XOR, ZERO
implies EQUAL for OR, no carry for operations 3 to 7, no ZERO with a carry shifted in, no ZERO for CMP, and what does not
depend on what. -/
def Obligations.AluLawsOfFlags : Prop :=
  ∀ (op : AluOp) (a b b' : Byte) (cin cin' : Bool),
    ((alu .add a b cin).c.toNat = (a.toNat + b.toNat + cin.toNat) % 256) ∧
    ((alu .add a b cin).f.getLsbD 3 = true ↔ a.toNat + b.toNat + cin.toNat > 255) ∧
    ((alu op a b cin).f.getLsbD 2 = true ↔ a.toNat > b.toNat) ∧ ((alu op a b cin).f.getLsbD 1 = true ↔ a = b) ∧
    (alu .cmp a b cin).f.getLsbD 0 = false ∧
    ¬ ((alu op a b cin).f.getLsbD 2 = true ∧ (alu op a b cin).f.getLsbD 1 = true) ∧
    (alu .xor a b cin).f.getLsbD 0 = (alu .xor a b cin).f.getLsbD 1 ∧
    ((alu .or a b cin).f.getLsbD 0 = true → (alu .or a b cin).f.getLsbD 1 = true) ∧
    (3 ≤ (codeOfAluOp op).toNat → (alu op a b cin).f.getLsbD 3 = false ∧ alu op a b cin = alu op a b cin') ∧
    (alu .shl a b true).f.getLsbD 0 = false ∧ (alu .shr a b true).f.getLsbD 0 = false ∧
    (op = .shl ∨ op = .shr ∨ op = .not ∨ op = .cmp → (alu op a b cin).c = (alu op a b' cin).c)

/-! ## Load, store, load immediate -/

/-- LD (R105): boundary semantics, frame, encoding, micro-schedule. The micro-schedule is the spec's own decision D9 (log
entry 13), and MAR at the end its decision D11 (log entry 11). -/
def Obligations.LdLoadsTheByteAtTheRegister : Prop :=
  (∀ (a b : Reg) (s : State), ∃ t, exec (.ld a b) s = .next t ∧
    (∀ q : Reg, t.reg q = if q = b then s.readByte (s.reg a) else s.reg q) ∧
    t = { s with regs := t.regs, mar := s.reg a, pc := s.pc + 1#8 }) ∧
  classDecodesTo 0 false (fun w _ => .ld (regA w) (regB w)) ∧
  (∀ s : State, s.ir.toNat / 16 = 0 → position3 s = .next { s with mar := s.reg (regA s.ir) } ∧
    position4 s = .next (s.setReg (regB s.ir) (s.readByte s.mar)) ∧ position5 s = .next s)

/-- ST (R106): the byte of x[B] at the address x[A] and no other byte of RAM; every other field but PC and MAR as before;
encoding, micro-schedule. The micro-schedule is the spec's own decision D9 (log entry 13), and MAR at the end its decision
D11 (log entry 11). -/
def Obligations.StStoresOneByteAtTheRegister : Prop :=
  (∀ (a b : Reg) (s : State), ∃ t, exec (.st a b) s = .next t ∧
    (∀ addr : Byte, t.readByte addr = if addr = s.reg a then s.reg b else s.readByte addr) ∧
    t = { s with ram := t.ram, mar := s.reg a, pc := s.pc + 1#8 }) ∧
  classDecodesTo 1 false (fun w _ => .st (regA w) (regB w)) ∧
  (∀ s : State, s.ir.toNat / 16 = 1 → position3 s = .next { s with mar := s.reg (regA s.ir) } ∧
    position4 s = .next (s.writeByte s.mar (s.reg (regB s.ir))) ∧ position5 s = .next s)

/-- DATA (R107): the immediate to x[B], PC past it, FLAGS and RAM as before; encoding, micro-schedule. The
micro-schedule is the spec's own decision D9 (log entry 13), and MAR and ACC at the end its decision D11 (log entry 11). -/
def Obligations.DataLoadsTheImmediate : Prop :=
  (∀ (b : Reg) (imm : Byte) (s : State), ∃ t, exec (.data b imm) s = .next t ∧
    (∀ q : Reg, t.reg q = if q = b then imm else s.reg q) ∧
    t = { s with regs := t.regs, mar := s.pc + 1#8, acc := s.pc + 2#8, pc := s.pc + 2#8 }) ∧
  classDecodesTo 2 true (fun w imm => .data (regB w) imm) ∧
  (∀ s : State, (s.readByte s.pc).toNat / 16 = 2 →
    s.fetchInstr = .data (regB (s.readByte s.pc)) (s.readByte (s.pc + 1#8))) ∧
  (∀ s : State, s.ir.toNat / 16 = 2 → position3 s = .next { s with mar := s.pc, acc := s.pc + 1#8 } ∧
    position4 s = .next (s.setReg (regB s.ir) (s.readByte s.mar)) ∧ position5 s = .next { s with pc := s.acc })

/-! ## Control transfer -/

/-- JMPR (R110): PC takes x[B] and nothing else changes; encoding, micro-schedule. The micro-schedule is the spec's own
decision D9 (log entry 13), and the untouched latches its decision D11 (log entry 11). -/
def Obligations.JmprJumpsToTheRegister : Prop :=
  (∀ (b : Reg) (s : State), exec (.jmpr b) s = .next { s with pc := s.reg b }) ∧
  classDecodesTo 3 false (fun w _ => .jmpr (regB w)) ∧
  (∀ s : State, s.ir.toNat / 16 = 3 →
    position3 s = .next { s with pc := s.reg (regB s.ir) } ∧ position4 s = .next s ∧ position5 s = .next s)

/-- JMP (R111): PC takes the second byte, MAR the byte's address, and nothing else changes; encoding, micro-schedule.
The micro-schedule is the spec's own decision D9 (log entry 13), and MAR at the end its decision D11 (log entry 11). -/
def Obligations.JmpJumpsToTheSecondByte : Prop :=
  (∀ (addr : Byte) (s : State), exec (.jmp addr) s = .next { s with mar := s.pc + 1#8, pc := addr }) ∧
  classDecodesTo 4 true (fun _ imm => .jmp imm) ∧
  (∀ s : State, (s.readByte s.pc).toNat / 16 = 4 → s.fetchInstr = .jmp (s.readByte (s.pc + 1#8))) ∧
  (∀ s : State, s.ir.toNat / 16 = 4 → position3 s = .next { s with mar := s.pc } ∧
    position4 s = .next { s with pc := s.readByte s.mar } ∧ position5 s = .next s)

/-- JXXX (R112): to the second byte exactly if some flag selected by the mask is set, else to pc0 + 2; FLAGS and all else
but PC, MAR and ACC as before; encoding, micro-schedule. The mask's place is the spec's own decision
D2 (log entry 24). -/
def Obligations.JxxxJumpsIfASelectedFlagIsSet : Prop :=
  (∀ (mask : FlagBits) (addr : Byte) (s : State), exec (.jxxx mask addr) s = .next { s with
    mar := s.pc + 1#8
    acc := s.pc + 2#8
    pc := if ∃ i : Fin 4, s.flags.getLsbD i = true ∧ mask.getLsbD i = true then addr else s.pc + 2#8 }) ∧
  classDecodesTo 5 true (fun w imm => .jxxx (w.extractLsb' 0 4) imm) ∧
  (∀ s : State, (s.readByte s.pc).toNat / 16 = 5 →
    s.fetchInstr = .jxxx ((s.readByte s.pc).extractLsb' 0 4) (s.readByte (s.pc + 1#8))) ∧
  (∀ s : State, s.ir.toNat / 16 = 5 → position3 s = .next { s with mar := s.pc, acc := s.pc + 1#8 } ∧
    position4 s = .next { s with pc := s.acc } ∧
    position5 s = .next { s with
      pc := if s.flags &&& s.ir.extractLsb' 0 4 ≠ 0#4 then s.readByte s.mar else s.pc })

/-! ## CLF and the ports -/

/-- CLF (R115): all four flags 0, which is the flags output of `ALU(ADD, 0, 1, 0)`, PC past the opcode, nothing else;
encoding, micro-schedule. The micro-schedule is the spec's own decision D9 (log entry 13), and the untouched latches its
decision D11 (log entry 11). -/
def Obligations.ClfClearsTheFlags : Prop :=
  (∀ s : State, exec .clf s = .next { s with flags := 0#4, pc := s.pc + 1#8 }) ∧
  (alu .add 0#8 1#8 false).f = 0#4 ∧
  classDecodesTo 6 false (fun _ _ => .clf) ∧
  (∀ s : State, s.ir.toNat / 16 = 6 →
    position3 s = .next { s with flags := 0#4 } ∧ position4 s = .next s ∧ position5 s = .next s)

/-- IND (R120) with a registered handler that returns: the handler's own effects, then the returned byte to x[B]; the call
is one input event at IOADDR; with the default slot nothing but PC. Encoding. FLAGS, RAM and IOADDR are as before in
both. The reply is any reply: `replyTo` gives the next of State's `replies` or a free value (log entry 3).
The default slot and the order of handler and write-back are the spec's own decisions D14, D16. -/
def Obligations.IndReadsThePort : Prop :=
  (∀ (b : Reg) (s : State) (v : Byte) (halt : Bool) (w : RegisterWrites),
    s.inHandlers.registered s.ioaddr = true → s.replyTo (.input s.ioaddr) = .returns v halt w →
    ∃ t, exec (.ind b) s = .next t ∧
      (∀ q : Reg, t.reg q = if q = b then v else (handlerWrote w q).getD (s.reg q)) ∧
      t = { s with
        regs := t.regs
        pc := s.pc + 1#8
        running := s.running && !halt
        replies := s.replies.tail
        traffic := s.traffic ++ [.input s.ioaddr v] }) ∧
  (∀ (b : Reg) (s : State), s.inHandlers.registered s.ioaddr = false →
    exec (.ind b) s = .next { s with pc := s.pc + 1#8 }) ∧
  submodeDecodesTo 0 .ind ∧
  (∀ s : State, s.ir.toNat / 4 = 28 →
    position3 s = onNext (exec (.ind (regB s.ir)) s) (fun t => .next { t with pc := s.pc }) ∧
    position4 s = .next s ∧ position5 s = .next s)

/-- INA (R121): IOADDR to x[B], with no handler called; encoding, and the same at position 3 of the micro-cycle engine
(the spec's own decision D21, log entry 10). -/
def Obligations.InaReadsBackTheIoAddress : Prop :=
  (∀ (b : Reg) (s : State), ∃ t, exec (.ina b) s = .next t ∧
    (∀ q : Reg, t.reg q = if q = b then s.ioaddr else s.reg q) ∧
    t = { s with regs := t.regs, pc := s.pc + 1#8 }) ∧
  submodeDecodesTo 1 .ina ∧
  (∀ s : State, s.ir.toNat / 4 = 29 → position3 s = .next (s.setReg (regB s.ir) s.ioaddr) ∧
    position4 s = .next s ∧ position5 s = .next s)

/-- OUTD (R122) with a registered handler that returns: one output event at IOADDR with the value x[B] had before, and the
handler's own effects; with the default slot nothing but PC (R119). Encoding, micro-schedule. The
reply is any reply (log entry 3) and the record of calls the model's own (log entry 4); the default slot is the spec's own
decision D14 (log entry 17), and position 3 its decision D9 (log entry 13). -/
def Obligations.OutdWritesThePort : Prop :=
  (∀ (b : Reg) (s : State) (v : Byte) (halt : Bool) (w : RegisterWrites),
    s.outHandlers.registered s.ioaddr = true → s.replyTo (.output s.ioaddr (s.reg b)) = .returns v halt w →
    ∃ t, exec (.outd b) s = .next t ∧
      (∀ q : Reg, t.reg q = (handlerWrote w q).getD (s.reg q)) ∧
      t = { s with
        regs := t.regs
        pc := s.pc + 1#8
        running := s.running && !halt
        replies := s.replies.tail
        traffic := s.traffic ++ [.output s.ioaddr (s.reg b)] }) ∧
  (∀ (b : Reg) (s : State), s.outHandlers.registered s.ioaddr = false →
    exec (.outd b) s = .next { s with pc := s.pc + 1#8 }) ∧
  submodeDecodesTo 2 .outd ∧
  (∀ s : State, s.ir.toNat / 4 = 30 →
    position3 s = onNext (exec (.outd (regB s.ir)) s) (fun t => .next { t with pc := s.pc }) ∧
    position4 s = .next s ∧ position5 s = .next s)

/-- OUTA (R123): IOADDR takes x[B], no handler is called, nothing else but PC; encoding, micro-schedule. The
micro-schedule is the spec's own decision D9 (log entry 13), and the untouched latches its decision D11 (log entry 11). -/
def Obligations.OutaSelectsThePort : Prop :=
  (∀ (b : Reg) (s : State), exec (.outa b) s = .next { s with ioaddr := s.reg b, pc := s.pc + 1#8 }) ∧
  submodeDecodesTo 3 .outa ∧
  (∀ s : State, s.ir.toNat / 4 = 31 → position3 s = .next { s with ioaddr := s.reg (regB s.ir) } ∧
    position4 s = .next s ∧ position5 s = .next s)

/-! ## The ALU class -/

/-- The common rule of the eight (R74): x[A] and x[B] and the old CARRY in, the result to x[B] unless CMP, all four flags
replaced, no RAM byte touched; ACC and TMP as R129 leaves them (the spec's own decisions D4, D5, D6). -/
def Obligations.AluClassCommonRule : Prop :=
  ∀ (op : AluOp) (a b : Reg) (s : State), ∃ t, exec (aluInstr op a b) s = .next t ∧
    (∀ q : Reg, t.reg q =
      if q = b ∧ op ≠ .cmp then (alu op (s.reg a) (s.reg b) (s.flags.getLsbD 3)).c else s.reg q) ∧
    t = { s with
      regs := t.regs
      flags := (alu op (s.reg a) (s.reg b) (s.flags.getLsbD 3)).f
      pc := s.pc + 1#8
      acc := (alu op (s.reg a) (s.reg b) (s.flags.getLsbD 3)).c
      tmp := s.reg b }

/-- ADD (R66): the sum with the old CARRY modulo 256 to x[B]; CARRY the ninth bit, ZERO from the 8-bit sum, A_LARGER and
EQUAL from the operands; every other register, RAM and field as before; encoding.
The carry-in is the spec's own decision D4 (log entry 8), the operand roles D5 (log entry 21), ACC and TMP D11 (log entry
11). -/
def Obligations.AddAddsWithCarry : Prop :=
  (∀ (a b : Reg) (s : State), ∃ t, exec (.add a b) s = .next t ∧
    (∀ q : Reg, (t.reg q).toNat = if q = b
      then ((s.reg a).toNat + (s.reg b).toNat + (s.flags.getLsbD 3).toNat) % 256 else (s.reg q).toNat) ∧
    t.flags.getLsbD 3 = decide ((s.reg a).toNat + (s.reg b).toNat + (s.flags.getLsbD 3).toNat > 255) ∧
    t.flags.getLsbD 2 = decide ((s.reg a).toNat > (s.reg b).toNat) ∧
    t.flags.getLsbD 1 = decide (s.reg a = s.reg b) ∧
    t.flags.getLsbD 0 =
      decide (((s.reg a).toNat + (s.reg b).toNat + (s.flags.getLsbD 3).toNat) % 256 = 0) ∧
    t = { s with regs := t.regs, flags := t.flags, pc := s.pc + 1#8, acc := t.reg b, tmp := s.reg b }) ∧
  classDecodesTo 8 false (fun w _ => .add (regA w) (regB w))

/-- SHL (R67): x[A] shifted left one place with the old CARRY in at bit 0, to x[B]; CARRY the bit shifted out.
The carry-in is the spec's own decision D4 (log entry 8), the operand roles D5 (log entry 21), ACC and TMP D11 (log entry
11). -/
def Obligations.ShlShiftsLeftThroughCarry : Prop :=
  (∀ (a b : Reg) (s : State), ∃ t, exec (.shl a b) s = .next t ∧
    (∀ q : Reg, (t.reg q).toNat = if q = b
      then (2 * (s.reg a).toNat + (s.flags.getLsbD 3).toNat) % 256 else (s.reg q).toNat) ∧
    t.flags.getLsbD 3 = (s.reg a).getLsbD 7 ∧
    t.flags.getLsbD 2 = decide ((s.reg a).toNat > (s.reg b).toNat) ∧
    t.flags.getLsbD 1 = decide (s.reg a = s.reg b) ∧ t.flags.getLsbD 0 = decide (t.reg b = 0#8) ∧
    t = { s with regs := t.regs, flags := t.flags, pc := s.pc + 1#8, acc := t.reg b, tmp := s.reg b }) ∧
  classDecodesTo 9 false (fun w _ => .shl (regA w) (regB w))

/-- SHR (R68): x[A] shifted right one place with the old CARRY in at bit 7, to x[B]; CARRY the bit shifted out.
The carry-in is the spec's own decision D4 (log entry 8), the operand roles D5 (log entry 21), ACC and TMP D11 (log entry
11). -/
def Obligations.ShrShiftsRightThroughCarry : Prop :=
  (∀ (a b : Reg) (s : State), ∃ t, exec (.shr a b) s = .next t ∧
    (∀ q : Reg, (t.reg q).toNat = if q = b
      then (s.reg a).toNat / 2 + 128 * (s.flags.getLsbD 3).toNat else (s.reg q).toNat) ∧
    t.flags.getLsbD 3 = (s.reg a).getLsbD 0 ∧
    t.flags.getLsbD 2 = decide ((s.reg a).toNat > (s.reg b).toNat) ∧
    t.flags.getLsbD 1 = decide (s.reg a = s.reg b) ∧ t.flags.getLsbD 0 = decide (t.reg b = 0#8) ∧
    t = { s with regs := t.regs, flags := t.flags, pc := s.pc + 1#8, acc := t.reg b, tmp := s.reg b }) ∧
  classDecodesTo 10 false (fun w _ => .shr (regA w) (regB w))

/-- NOT (R69): 255 - x[A] to x[B]; CARRY 0, ZERO exactly when x[A] was 255.
That CARRY is 0 is the spec's own decision D7 and the operand roles D5 (log entry 21), ACC and TMP D11 (log entry 11). -/
def Obligations.NotComplementsTheRegister : Prop :=
  (∀ (a b : Reg) (s : State), ∃ t, exec (.not a b) s = .next t ∧
    (∀ q : Reg, (t.reg q).toNat = if q = b then 255 - (s.reg a).toNat else (s.reg q).toNat) ∧
    t.flags.getLsbD 3 = false ∧
    t.flags.getLsbD 2 = decide ((s.reg a).toNat > (s.reg b).toNat) ∧
    t.flags.getLsbD 1 = decide (s.reg a = s.reg b) ∧ t.flags.getLsbD 0 = decide ((s.reg a).toNat = 255) ∧
    t = { s with regs := t.regs, flags := t.flags, pc := s.pc + 1#8, acc := t.reg b, tmp := s.reg b }) ∧
  classDecodesTo 11 false (fun w _ => .not (regA w) (regB w))

/-- AND (R70): bit by bit; CARRY 0, ZERO from the result.
The operand roles are the spec's own decision D5 (log entry 21), ACC and TMP D11 (log entry 11). -/
def Obligations.AndIsBitwiseWithCarryCleared : Prop :=
  (∀ (a b : Reg) (s : State), ∃ t, exec (.and a b) s = .next t ∧
    (∀ q : Reg, t.reg q = if q = b then s.reg a &&& s.reg b else s.reg q) ∧
    t.flags.getLsbD 3 = false ∧
    t.flags.getLsbD 2 = decide ((s.reg a).toNat > (s.reg b).toNat) ∧
    t.flags.getLsbD 1 = decide (s.reg a = s.reg b) ∧ t.flags.getLsbD 0 = decide (t.reg b = 0#8) ∧
    t = { s with regs := t.regs, flags := t.flags, pc := s.pc + 1#8, acc := t.reg b, tmp := s.reg b }) ∧
  classDecodesTo 12 false (fun w _ => .and (regA w) (regB w))

/-- OR (R71): bit by bit; CARRY 0, ZERO exactly when both registers were 0.
The operand roles are the spec's own decision D5 (log entry 21), ACC and TMP D11 (log entry 11). -/
def Obligations.OrIsBitwiseWithCarryCleared : Prop :=
  (∀ (a b : Reg) (s : State), ∃ t, exec (.or a b) s = .next t ∧
    (∀ q : Reg, t.reg q = if q = b then s.reg a ||| s.reg b else s.reg q) ∧
    t.flags.getLsbD 3 = false ∧
    t.flags.getLsbD 2 = decide ((s.reg a).toNat > (s.reg b).toNat) ∧
    t.flags.getLsbD 1 = decide (s.reg a = s.reg b) ∧
    t.flags.getLsbD 0 = decide (s.reg a = 0#8 ∧ s.reg b = 0#8) ∧
    t = { s with regs := t.regs, flags := t.flags, pc := s.pc + 1#8, acc := t.reg b, tmp := s.reg b }) ∧
  classDecodesTo 13 false (fun w _ => .or (regA w) (regB w))

/-- XOR (R72): bit by bit; CARRY 0, ZERO exactly when the registers were equal.
The operand roles are the spec's own decision D5 (log entry 21), ACC and TMP D11 (log entry 11). -/
def Obligations.XorIsBitwiseWithCarryCleared : Prop :=
  (∀ (a b : Reg) (s : State), ∃ t, exec (.xor a b) s = .next t ∧
    (∀ q : Reg, t.reg q = if q = b then s.reg a ^^^ s.reg b else s.reg q) ∧
    t.flags.getLsbD 3 = false ∧
    t.flags.getLsbD 2 = decide ((s.reg a).toNat > (s.reg b).toNat) ∧
    t.flags.getLsbD 1 = decide (s.reg a = s.reg b) ∧ t.flags.getLsbD 0 = decide (s.reg a = s.reg b) ∧
    t = { s with regs := t.regs, flags := t.flags, pc := s.pc + 1#8, acc := t.reg b, tmp := s.reg b }) ∧
  classDecodesTo 14 false (fun w _ => .xor (regA w) (regB w))

/-- CMP (R73): flags only: A_LARGER and EQUAL from the operands, CARRY 0, ZERO 0; no register; ACC 0 (the
spec's own decisions D6, D7, D8; log entry 9). -/
def Obligations.CmpWritesFlagsOnly : Prop :=
  (∀ (a b : Reg) (s : State), ∃ t, exec (.cmp a b) s = .next t ∧
    t.flags.getLsbD 3 = false ∧
    t.flags.getLsbD 2 = decide ((s.reg a).toNat > (s.reg b).toNat) ∧
    t.flags.getLsbD 1 = decide (s.reg a = s.reg b) ∧ t.flags.getLsbD 0 = false ∧
    t = { s with flags := t.flags, pc := s.pc + 1#8, acc := 0#8, tmp := s.reg b }) ∧
  classDecodesTo 15 false (fun w _ => .cmp (regA w) (regB w))

/-! ## Rules of the whole machine -/

/-- How each instruction leaves PC, as a function of the PC before it; and no instruction's registers depend on PC
(R14, derived by the spec from the instructions' rules). -/
def Obligations.ProgramCounterAfterEachInstruction : Prop :=
  (∀ s t : State, stepInstructionFast s = .next t → t.pc =
    match s.fetchInstr with
    | .data _ _ => s.pc + 2#8
    | .jmpr b => s.reg b
    | .jmp _ => s.readByte (s.pc + 1#8)
    | .jxxx mask _ => if s.flags &&& mask ≠ 0#4 then s.readByte (s.pc + 1#8) else s.pc + 2#8
    | _ => s.pc + 1#8) ∧
  (∀ (i : Instr) (s t : State) (p : Byte), exec i s = .next t →
    ∃ t', exec i { s with pc := p } = .next t' ∧ t'.regs = t.regs)

/-- Only the ALU class and CLF write FLAGS (R16). -/
def Obligations.OnlyAluAndClfWriteFlags : Prop :=
  ∀ (i : Instr) (s t : State), exec i s = .next t → i.isAlu = false → i ≠ .clf → t.flags = s.flags

/-- Only ST writes RAM, and at the one address it stores to; no handler does (R31, R34, R38). -/
def Obligations.OnlyStWritesRam : Prop :=
  ∀ (i : Instr) (s t : State), exec i s = .next t → ∀ addr : Byte,
    (∀ a b : Reg, i = .st a b → addr ≠ indirectAddress s a) → t.readByte addr = s.readByte addr

/-- Only OUTA writes IOADDR, by exec and by every step of either engine that runs another instruction (R18). -/
def Obligations.OnlyOutaWritesIoaddr : Prop :=
  (∀ (i : Instr) (s t : State), exec i s = .next t → (∀ b : Reg, i ≠ .outa b) → t.ioaddr = s.ioaddr) ∧
  (∀ s t : State, stepCycle s = .next t → s.ir.toNat / 4 ≠ 31 → t.ioaddr = s.ioaddr)

/-- A register other than operand B changes only by a port handler's own write: so without a handler call every register
but B is kept, A included unless A = B (R11). -/
def Obligations.OnlyOperandBIsWritten : Prop :=
  ∀ (i : Instr) (s t : State) (q : Reg), exec i s = .next t → t.reg q ≠ s.reg q → t.traffic = s.traffic →
    ∃ a : Reg, i = .ld a q ∨ (∃ imm, i = .data q imm) ∨ i = .ina q ∨
      (∃ op : AluOp, op ≠ .cmp ∧ i = aluInstr op a q)

/-- No step changes a handler table (R27). -/
def Obligations.HandlerTablesNeverChange : Prop :=
  ∀ s t : State, step s = .next t → t.inHandlers = s.inHandlers ∧ t.outHandlers = s.outHandlers

/-- `running` is never set by a step, and it is cleared only in a step that calls a port handler (R20). -/
def Obligations.RunningIsClearedOnlyByAPortHandler : Prop :=
  ∀ s t : State, step s = .next t →
    (t.running = true → s.running = true) ∧ (t.running ≠ s.running → t.traffic ≠ s.traffic)

/-- `running` changes nothing in what a call does, under each of the three step operations: from the state with `running`
cleared it ends as it does from the state itself, with `running` cleared, and it hangs in the same cases. The one premise is
on the port call, if the call makes one: that the environment answers it alike (R104, the spec's own decision D13, log
entry 15). -/
def Obligations.StepDoesNotTestRunning : Prop :=
  ∀ s : State,
    (s.sameReplyHalted (if s.position = 3 then portCallOf (decodeOp s.ir 0#8) s else none) →
      stepCycle s.halted = onNext (stepCycle s) (fun t => .next t.halted)) ∧
    (s.sameReplyHalted (s.toExecute.bind (fun i => portCallOf i s)) →
      stepInstruction s.halted = onNext (stepInstruction s) (fun t => .next t.halted)) ∧
    (s.sameReplyHalted (portCallOf s.fetchInstr s) →
      stepInstructionFast s.halted = onNext (stepInstructionFast s) (fun t => .next t.halted))

/-- The latches are dead at a boundary: states that differ in them alone go, under either engine, to states that differ in
them alone. A boundary of the micro-cycle engine is clock_cycle mod 7 = 0, and any state between two calls one of the fast
engine's (R24, derived by the spec; R9). -/
def Obligations.LatchesAreDeadAtABoundary : Prop :=
  ∀ s s' t : State, s.sameButLatches s' →
    (s.clockCycle % 7 = 0 → runCycles 7 s = .next t → ∃ t', runCycles 7 s' = .next t' ∧ t.sameButLatches t') ∧
    (stepInstructionFast s = .next t → ∃ t', stepInstructionFast s' = .next t' ∧ t.sameButLatches t')

/-- A store into the next instruction's bytes is seen by its fetch: after ST at the opcode address pc0, the instruction
fetched next is the one the bytes at pc0 + 1 and pc0 + 2 spell with the stored byte in place (R41, derived by the spec
from R34 and R38). -/
def Obligations.StoreIsSeenByTheNextFetch : Prop :=
  ∀ (s t : State) (a b : Reg), s.fetchInstr = .st a b → stepInstructionFast s = .next t →
    t.pc = s.pc + 1#8 ∧
    (s.reg a = s.pc + 1#8 → t.fetchInstr = decodeOp (s.reg b) (s.readByte (s.pc + 2#8))) ∧
    (s.reg a = s.pc + 2#8 → t.fetchInstr = decodeOp (s.readByte (s.pc + 1#8)) (s.reg b)) ∧
    (s.reg a ≠ s.pc + 1#8 → s.reg a ≠ s.pc + 2#8 →
      t.fetchInstr = decodeOp (s.readByte (s.pc + 1#8)) (s.readByte (s.pc + 2#8)))
end

