-- ==== Sys2Proof/Laws/Memory.lean ====
section
/-! SUPPORT. RAM: read after write, and the canonical form kept by every operation. The read laws hold of every list,
canonical or not. -/

namespace Sys2Proof.Machine

@[simp] theorem Memory.read_nil (a : Nat) : Memory.read [] a = 0#8 := rfl

theorem Memory.read_erase (m : Memory) (a b : Nat) :
    (m.erase a).read b = if b = a then 0#8 else m.read b := by
  induction m with
  | nil => simp [Memory.erase]
  | cons c rest ih =>
    obtain ⟨k, w⟩ := c
    simp only [Memory.erase, List.filter_cons] at ih ⊢
    by_cases hk : k = a
    · subst hk
      simp only [ne_eq, not_true_eq_false, decide_false, Bool.false_eq_true, if_false, ih, Memory.read]
      by_cases hb : b = k
      · simp [hb]
      · simp [hb, show ¬ k = b from fun e => hb e.symm]
    · simp only [ne_eq, hk, not_false_eq_true, decide_true, if_true, Memory.read, ih]
      split
      · subst_vars; simp [hk]
      · rfl

theorem Memory.read_place (m : Memory) (a : Nat) (v : Byte) (b : Nat) :
    (m.place a v).read b = if b = a then v else m.read b := by
  induction m with
  | nil => simp [Memory.place, Memory.read, Memory.unlisted, eq_comm]
  | cons c rest ih =>
    obtain ⟨k, w⟩ := c
    simp only [Memory.place]
    split
    · simp only [Memory.read, eq_comm]
    · rename_i hk
      simp only [Memory.read, ih]
      split
      · subst_vars; simp [show ¬ k = a by omega]
      · rfl

/-- What a write does to every read. -/
theorem Memory.read_write (m : Memory) (a : Nat) (v : Byte) (b : Nat) :
    (m.write a v).read b = if b = a then v else m.read b := by
  unfold Memory.write
  split
  · subst_vars; rw [Memory.read_erase]; rfl
  · rw [Memory.read_place, Memory.read_erase]; split <;> simp_all

@[simp] theorem Memory.read_write_same (m : Memory) (a : Nat) (v : Byte) : (m.write a v).read a = v := by
  simp [Memory.read_write]

theorem Memory.read_write_other (m : Memory) {a b : Nat} (v : Byte) (h : b ≠ a) :
    (m.write a v).read b = m.read b := by
  simp [Memory.read_write, h]

theorem Memory.mem_erase {m : Memory} {a : Nat} {c : Host.Cell} : c ∈ m.erase a ↔ c ∈ m ∧ c.1 ≠ a := by
  simp [Memory.erase]

theorem Memory.mem_place {m : Memory} {a : Nat} {v : Byte} {c : Host.Cell} :
    c ∈ m.place a v ↔ c = (a, v) ∨ c ∈ m := by
  induction m with
  | nil => simp [Memory.place]
  | cons d rest ih =>
    obtain ⟨k, w⟩ := d
    simp only [Memory.place]
    split
    · simp
    · simp only [List.mem_cons, ih]; tauto

theorem Memory.pairwise_place {m : Memory} {a : Nat} {v : Byte} (h : m.Pairwise (fun c d => c.1 < d.1))
    (ha : ∀ c ∈ m, c.1 ≠ a) : (m.place a v).Pairwise (fun c d => c.1 < d.1) := by
  induction m with
  | nil => simp [Memory.place]
  | cons d rest ih =>
    obtain ⟨k, w⟩ := d
    obtain ⟨hd, hr⟩ := List.pairwise_cons.mp h
    have hk : k ≠ a := ha (k, w) (by simp)
    simp only [Memory.place]
    split
    · refine List.pairwise_cons.mpr ⟨fun c hc => ?_, h⟩
      rcases List.mem_cons.mp hc with rfl | hc
      · show a < k; omega
      · have := hd c hc; show a < c.1; simp only at this; omega
    · refine List.pairwise_cons.mpr ⟨fun c hc => ?_, ih hr (fun c hc => ha c (by simp [hc]))⟩
      rcases Memory.mem_place.mp hc with rfl | hc
      · show k < a; omega
      · exact hd c hc

theorem Memory.wf_nil : Memory.wf [] := by simp [Memory.wf]

/-- Every write to an address of the machine keeps the canonical form. -/
theorem Memory.wf_write {m : Memory} {a : Nat} (v : Byte) (hm : m.wf) (ha : a < 256) : (m.write a v).wf := by
  have he : (m.erase a).Pairwise (fun c d => c.1 < d.1) := hm.1.filter _
  unfold Memory.write
  split
  · exact ⟨he, fun c hc => hm.2 c (Memory.mem_erase.mp hc).1⟩
  · rename_i hv
    refine ⟨Memory.pairwise_place he (fun c hc => (Memory.mem_erase.mp hc).2), fun c hc => ?_⟩
    rcases Memory.mem_place.mp hc with rfl | hc
    · exact ⟨ha, hv⟩
    · exact hm.2 c (Memory.mem_erase.mp hc).1

theorem Memory.wf_writeFrom {bytes : List Byte} : ∀ {m : Memory} {n : Nat}, m.wf → n + bytes.length ≤ 256 →
    (Memory.writeFrom m n bytes).wf := by
  induction bytes with
  | nil => intro m n hm _; exact hm
  | cons b rest ih =>
    intro m n hm hn
    simp only [List.length_cons] at hn
    exact ih (Memory.wf_write b hm (by omega)) (by omega)

/-- What a write through the state does to every read. -/
theorem State.readByte_writeByte (s : State) (a v b : Byte) :
    (s.writeByte a v).readByte b = if b = a then v else s.readByte b := by
  unfold State.readByte State.writeByte
  simp only [Memory.read_write, BitVec.toNat_inj]

@[simp] theorem State.readByte_setReg (s : State) (r : Reg) (v a : Byte) :
    (s.setReg r v).readByte a = s.readByte a := rfl

@[simp] theorem State.readByte_tick (s : State) (n : Nat) (a : Byte) : (s.tick n).readByte a = s.readByte a := rfl

@[simp] theorem State.readByte_afterHandler (s : State) (h : Bool) (w : RegisterWrites) (e : PortEvent) (a : Byte) :
    (s.afterHandler h w e).readByte a = s.readByte a := rfl

/-! Handler tables. -/

theorem PortTable.mem_register {t : PortTable} {p q : Byte} : q ∈ t.register p ↔ q = p ∨ q ∈ t := by
  induction t with
  | nil => simp [PortTable.register]
  | cons x rest ih =>
    simp only [PortTable.register]
    split
    · simp
    · split
      · subst_vars; simp
      · simp only [List.mem_cons, ih]; tauto

theorem PortTable.wf_register {t : PortTable} (p : Byte) (h : t.wf) : (t.register p).wf := by
  induction t with
  | nil => simp [PortTable.register]
  | cons x rest ih =>
    obtain ⟨hx, hr⟩ := List.pairwise_cons.mp h
    simp only [PortTable.register]
    split
    · rename_i hp
      refine List.pairwise_cons.mpr ⟨fun q hq => ?_, h⟩
      rcases List.mem_cons.mp hq with rfl | hq
      · exact hp
      · exact Nat.lt_trans hp (hx q hq)
    · split
      · exact h
      · rename_i h1 h2
        refine List.pairwise_cons.mpr ⟨fun q hq => ?_, ih hr⟩
        rcases PortTable.mem_register.mp hq with rfl | hq
        · have : q.toNat ≠ x.toNat := fun e => h2 (BitVec.eq_of_toNat_eq e)
          omega
        · exact hx q hq

end Sys2Proof.Machine
end

