-- ==== Sys2Proof/Laws/State.lean ====
section
/-! SUPPORT. The state's updates, one lemma per field per update, each true by rfl; with what an update leaves of the
readings `reg` and `readByte`. -/

namespace Sys2Proof.Machine

@[simp] theorem State.setReg_regs (s : State) (r : Reg) (v : Byte) : (s.setReg r v).regs = writeRegister s.regs r v := rfl
@[simp] theorem State.setReg_pc (s : State) (r : Reg) (v : Byte) : (s.setReg r v).pc = s.pc := rfl
@[simp] theorem State.setReg_ir (s : State) (r : Reg) (v : Byte) : (s.setReg r v).ir = s.ir := rfl
@[simp] theorem State.setReg_mar (s : State) (r : Reg) (v : Byte) : (s.setReg r v).mar = s.mar := rfl
@[simp] theorem State.setReg_acc (s : State) (r : Reg) (v : Byte) : (s.setReg r v).acc = s.acc := rfl
@[simp] theorem State.setReg_tmp (s : State) (r : Reg) (v : Byte) : (s.setReg r v).tmp = s.tmp := rfl
@[simp] theorem State.setReg_flags (s : State) (r : Reg) (v : Byte) : (s.setReg r v).flags = s.flags := rfl
@[simp] theorem State.setReg_ioaddr (s : State) (r : Reg) (v : Byte) : (s.setReg r v).ioaddr = s.ioaddr := rfl
@[simp] theorem State.setReg_clockCycle (s : State) (r : Reg) (v : Byte) : (s.setReg r v).clockCycle = s.clockCycle := rfl
@[simp] theorem State.setReg_running (s : State) (r : Reg) (v : Byte) : (s.setReg r v).running = s.running := rfl
@[simp] theorem State.setReg_ram (s : State) (r : Reg) (v : Byte) : (s.setReg r v).ram = s.ram := rfl
@[simp] theorem State.setReg_inHandlers (s : State) (r : Reg) (v : Byte) : (s.setReg r v).inHandlers = s.inHandlers := rfl
@[simp] theorem State.setReg_outHandlers (s : State) (r : Reg) (v : Byte) : (s.setReg r v).outHandlers = s.outHandlers := rfl
@[simp] theorem State.setReg_replies (s : State) (r : Reg) (v : Byte) : (s.setReg r v).replies = s.replies := rfl
@[simp] theorem State.setReg_traffic (s : State) (r : Reg) (v : Byte) : (s.setReg r v).traffic = s.traffic := rfl
@[simp] theorem State.setReg_driver (s : State) (r : Reg) (v : Byte) : (s.setReg r v).driver = s.driver := rfl

@[simp] theorem State.writeByte_regs (s : State) (a v : Byte) : (s.writeByte a v).regs = s.regs := rfl
@[simp] theorem State.writeByte_pc (s : State) (a v : Byte) : (s.writeByte a v).pc = s.pc := rfl
@[simp] theorem State.writeByte_ir (s : State) (a v : Byte) : (s.writeByte a v).ir = s.ir := rfl
@[simp] theorem State.writeByte_mar (s : State) (a v : Byte) : (s.writeByte a v).mar = s.mar := rfl
@[simp] theorem State.writeByte_acc (s : State) (a v : Byte) : (s.writeByte a v).acc = s.acc := rfl
@[simp] theorem State.writeByte_tmp (s : State) (a v : Byte) : (s.writeByte a v).tmp = s.tmp := rfl
@[simp] theorem State.writeByte_flags (s : State) (a v : Byte) : (s.writeByte a v).flags = s.flags := rfl
@[simp] theorem State.writeByte_ioaddr (s : State) (a v : Byte) : (s.writeByte a v).ioaddr = s.ioaddr := rfl
@[simp] theorem State.writeByte_clockCycle (s : State) (a v : Byte) : (s.writeByte a v).clockCycle = s.clockCycle := rfl
@[simp] theorem State.writeByte_running (s : State) (a v : Byte) : (s.writeByte a v).running = s.running := rfl
@[simp] theorem State.writeByte_ram (s : State) (a v : Byte) : (s.writeByte a v).ram = s.ram.write a.toNat v := rfl
@[simp] theorem State.writeByte_inHandlers (s : State) (a v : Byte) : (s.writeByte a v).inHandlers = s.inHandlers := rfl
@[simp] theorem State.writeByte_outHandlers (s : State) (a v : Byte) : (s.writeByte a v).outHandlers = s.outHandlers := rfl
@[simp] theorem State.writeByte_replies (s : State) (a v : Byte) : (s.writeByte a v).replies = s.replies := rfl
@[simp] theorem State.writeByte_traffic (s : State) (a v : Byte) : (s.writeByte a v).traffic = s.traffic := rfl
@[simp] theorem State.writeByte_driver (s : State) (a v : Byte) : (s.writeByte a v).driver = s.driver := rfl

@[simp] theorem State.tick_regs (s : State) (n : Nat) : (s.tick n).regs = s.regs := rfl
@[simp] theorem State.tick_pc (s : State) (n : Nat) : (s.tick n).pc = s.pc := rfl
@[simp] theorem State.tick_ir (s : State) (n : Nat) : (s.tick n).ir = s.ir := rfl
@[simp] theorem State.tick_mar (s : State) (n : Nat) : (s.tick n).mar = s.mar := rfl
@[simp] theorem State.tick_acc (s : State) (n : Nat) : (s.tick n).acc = s.acc := rfl
@[simp] theorem State.tick_tmp (s : State) (n : Nat) : (s.tick n).tmp = s.tmp := rfl
@[simp] theorem State.tick_flags (s : State) (n : Nat) : (s.tick n).flags = s.flags := rfl
@[simp] theorem State.tick_ioaddr (s : State) (n : Nat) : (s.tick n).ioaddr = s.ioaddr := rfl
@[simp] theorem State.tick_clockCycle (s : State) (n : Nat) : (s.tick n).clockCycle = clockAfter s.clockCycle n := rfl
@[simp] theorem State.tick_running (s : State) (n : Nat) : (s.tick n).running = s.running := rfl
@[simp] theorem State.tick_ram (s : State) (n : Nat) : (s.tick n).ram = s.ram := rfl
@[simp] theorem State.tick_inHandlers (s : State) (n : Nat) : (s.tick n).inHandlers = s.inHandlers := rfl
@[simp] theorem State.tick_outHandlers (s : State) (n : Nat) : (s.tick n).outHandlers = s.outHandlers := rfl
@[simp] theorem State.tick_replies (s : State) (n : Nat) : (s.tick n).replies = s.replies := rfl
@[simp] theorem State.tick_traffic (s : State) (n : Nat) : (s.tick n).traffic = s.traffic := rfl
@[simp] theorem State.tick_driver (s : State) (n : Nat) : (s.tick n).driver = s.driver := rfl

@[simp] theorem State.advance_regs (s : State) : s.advance.regs = s.regs := rfl
@[simp] theorem State.advance_pc (s : State) : s.advance.pc = afterOpcode s := rfl
@[simp] theorem State.advance_ir (s : State) : s.advance.ir = s.ir := rfl
@[simp] theorem State.advance_mar (s : State) : s.advance.mar = s.mar := rfl
@[simp] theorem State.advance_acc (s : State) : s.advance.acc = s.acc := rfl
@[simp] theorem State.advance_tmp (s : State) : s.advance.tmp = s.tmp := rfl
@[simp] theorem State.advance_flags (s : State) : s.advance.flags = s.flags := rfl
@[simp] theorem State.advance_ioaddr (s : State) : s.advance.ioaddr = s.ioaddr := rfl
@[simp] theorem State.advance_clockCycle (s : State) : s.advance.clockCycle = s.clockCycle := rfl
@[simp] theorem State.advance_running (s : State) : s.advance.running = s.running := rfl
@[simp] theorem State.advance_ram (s : State) : s.advance.ram = s.ram := rfl
@[simp] theorem State.advance_inHandlers (s : State) : s.advance.inHandlers = s.inHandlers := rfl
@[simp] theorem State.advance_outHandlers (s : State) : s.advance.outHandlers = s.outHandlers := rfl
@[simp] theorem State.advance_replies (s : State) : s.advance.replies = s.replies := rfl
@[simp] theorem State.advance_traffic (s : State) : s.advance.traffic = s.traffic := rfl
@[simp] theorem State.advance_driver (s : State) : s.advance.driver = s.driver := rfl

@[simp] theorem State.loadOpcode_regs (s : State) : s.loadOpcode.regs = s.regs := rfl
@[simp] theorem State.loadOpcode_pc (s : State) : s.loadOpcode.pc = s.pc := rfl
@[simp] theorem State.loadOpcode_ir (s : State) : s.loadOpcode.ir = s.readByte s.pc := rfl
@[simp] theorem State.loadOpcode_mar (s : State) : s.loadOpcode.mar = s.pc := rfl
@[simp] theorem State.loadOpcode_acc (s : State) : s.loadOpcode.acc = increment s.pc := rfl
@[simp] theorem State.loadOpcode_tmp (s : State) : s.loadOpcode.tmp = s.tmp := rfl
@[simp] theorem State.loadOpcode_flags (s : State) : s.loadOpcode.flags = s.flags := rfl
@[simp] theorem State.loadOpcode_ioaddr (s : State) : s.loadOpcode.ioaddr = s.ioaddr := rfl
@[simp] theorem State.loadOpcode_clockCycle (s : State) : s.loadOpcode.clockCycle = s.clockCycle := rfl
@[simp] theorem State.loadOpcode_running (s : State) : s.loadOpcode.running = s.running := rfl
@[simp] theorem State.loadOpcode_ram (s : State) : s.loadOpcode.ram = s.ram := rfl
@[simp] theorem State.loadOpcode_inHandlers (s : State) : s.loadOpcode.inHandlers = s.inHandlers := rfl
@[simp] theorem State.loadOpcode_outHandlers (s : State) : s.loadOpcode.outHandlers = s.outHandlers := rfl
@[simp] theorem State.loadOpcode_replies (s : State) : s.loadOpcode.replies = s.replies := rfl
@[simp] theorem State.loadOpcode_traffic (s : State) : s.loadOpcode.traffic = s.traffic := rfl
@[simp] theorem State.loadOpcode_driver (s : State) : s.loadOpcode.driver = s.driver := rfl

@[simp] theorem State.afterHandler_regs (s : State) (h : Bool) (w : RegisterWrites) (e : PortEvent) : (s.afterHandler h w e).regs = applyWrites s.regs w := rfl
@[simp] theorem State.afterHandler_pc (s : State) (h : Bool) (w : RegisterWrites) (e : PortEvent) : (s.afterHandler h w e).pc = s.pc := rfl
@[simp] theorem State.afterHandler_ir (s : State) (h : Bool) (w : RegisterWrites) (e : PortEvent) : (s.afterHandler h w e).ir = s.ir := rfl
@[simp] theorem State.afterHandler_mar (s : State) (h : Bool) (w : RegisterWrites) (e : PortEvent) : (s.afterHandler h w e).mar = s.mar := rfl
@[simp] theorem State.afterHandler_acc (s : State) (h : Bool) (w : RegisterWrites) (e : PortEvent) : (s.afterHandler h w e).acc = s.acc := rfl
@[simp] theorem State.afterHandler_tmp (s : State) (h : Bool) (w : RegisterWrites) (e : PortEvent) : (s.afterHandler h w e).tmp = s.tmp := rfl
@[simp] theorem State.afterHandler_flags (s : State) (h : Bool) (w : RegisterWrites) (e : PortEvent) : (s.afterHandler h w e).flags = s.flags := rfl
@[simp] theorem State.afterHandler_ioaddr (s : State) (h : Bool) (w : RegisterWrites) (e : PortEvent) : (s.afterHandler h w e).ioaddr = s.ioaddr := rfl
@[simp] theorem State.afterHandler_clockCycle (s : State) (h : Bool) (w : RegisterWrites) (e : PortEvent) : (s.afterHandler h w e).clockCycle = s.clockCycle := rfl
@[simp] theorem State.afterHandler_running (s : State) (h : Bool) (w : RegisterWrites) (e : PortEvent) : (s.afterHandler h w e).running = (s.running && !h) := rfl
@[simp] theorem State.afterHandler_ram (s : State) (h : Bool) (w : RegisterWrites) (e : PortEvent) : (s.afterHandler h w e).ram = s.ram := rfl
@[simp] theorem State.afterHandler_inHandlers (s : State) (h : Bool) (w : RegisterWrites) (e : PortEvent) : (s.afterHandler h w e).inHandlers = s.inHandlers := rfl
@[simp] theorem State.afterHandler_outHandlers (s : State) (h : Bool) (w : RegisterWrites) (e : PortEvent) : (s.afterHandler h w e).outHandlers = s.outHandlers := rfl
@[simp] theorem State.afterHandler_replies (s : State) (h : Bool) (w : RegisterWrites) (e : PortEvent) : (s.afterHandler h w e).replies = s.replies.tail := rfl
@[simp] theorem State.afterHandler_traffic (s : State) (h : Bool) (w : RegisterWrites) (e : PortEvent) : (s.afterHandler h w e).traffic = s.traffic ++ [e] := rfl
@[simp] theorem State.afterHandler_driver (s : State) (h : Bool) (w : RegisterWrites) (e : PortEvent) : (s.afterHandler h w e).driver = s.driver := rfl

end Sys2Proof.Machine
end

