-- ==== Sys2Proof/Laws/Ops.lean ====
section
/-! SUPPORT. What each shared operation can do, said once: registers, outcomes, ports, the ALU and its flags. -/

namespace Sys2Proof.Machine

/-! Registers. -/

theorem readRegister_writeRegister (g : Registers) (r q : Reg) (v : Byte) :
    readRegister (writeRegister g r v) q = if q = r then v else readRegister g q := by
  cases r <;> cases q <;> rfl

theorem State.reg_setReg (s : State) (r q : Reg) (v : Byte) :
    (s.setReg r v).reg q = if q = r then v else s.reg q :=
  readRegister_writeRegister s.regs r q v

@[simp] theorem State.reg_setReg_same (s : State) (r : Reg) (v : Byte) : (s.setReg r v).reg r = v := by
  simp [State.reg_setReg]

@[simp] theorem State.reg_writeByte (s : State) (a v : Byte) (r : Reg) : (s.writeByte a v).reg r = s.reg r := rfl

@[simp] theorem State.reg_tick (s : State) (n : Nat) (r : Reg) : (s.tick n).reg r = s.reg r := rfl

@[simp] theorem State.reg_advance (s : State) (r : Reg) : s.advance.reg r = s.reg r := rfl

@[simp] theorem State.reg_loadOpcode (s : State) (r : Reg) : s.loadOpcode.reg r = s.reg r := rfl

@[simp] theorem State.readByte_advance (s : State) (a : Byte) : s.advance.readByte a = s.readByte a := rfl

@[simp] theorem State.readByte_loadOpcode (s : State) (a : Byte) : s.loadOpcode.readByte a = s.readByte a := rfl

/-! Clock. -/

@[simp] theorem clockAfter_eq (c n : Nat) : clockAfter c n = c + n := rfl

/-! Outcomes. -/

@[simp] theorem onNext_next (s : State) (f : State → Host.Outcome State Fault Refusal) :
    onNext (.next s) f = f s := rfl

@[simp] theorem onNext_fault (r : Fault) (f : State → Host.Outcome State Fault Refusal) :
    onNext (.fault r) f = .fault r := rfl

@[simp] theorem onNext_refused (r : Refusal) (f : State → Host.Outcome State Fault Refusal) :
    onNext (.refused r) f = .refused r := rfl

theorem onNext_eq_next {o : Host.Outcome State Fault Refusal} {f : State → Host.Outcome State Fault Refusal} {t : State} :
    onNext o f = .next t ↔ ∃ m, o = .next m ∧ f m = .next t := by
  cases o <;> simp [onNext]

theorem onNext_assoc (o : Host.Outcome State Fault Refusal) (f g : State → Host.Outcome State Fault Refusal) :
    onNext (onNext o f) g = onNext o (fun t => onNext (f t) g) := by
  cases o <;> rfl

/-! Ports. -/

/-- All that IND's transfer can do when it answers a next state. -/
theorem inputData_next {b : Reg} {s t : State} (h : inputData b s = .next t) :
    (s.inHandlers.registered s.ioaddr = false ∧ t = s) ∨
    ∃ v halt w, s.inHandlers.registered s.ioaddr = true ∧ s.replyTo (.input s.ioaddr) = .returns v halt w ∧
      t = (s.afterHandler halt w (.input s.ioaddr v)).setReg b v := by
  unfold inputData at h
  split at h
  · rename_i hr
    split at h
    · rename_i v halt w hq
      exact .inr ⟨v, halt, w, hr, hq, by simpa using h.symm⟩
    · cases h
  · rename_i hr
    exact .inl ⟨by simpa using hr, by simpa using h.symm⟩

/-- All that OUTD's transfer can do when it answers a next state. -/
theorem outputData_next {b : Reg} {s t : State} (h : outputData b s = .next t) :
    (s.outHandlers.registered s.ioaddr = false ∧ t = s) ∨
    ∃ v halt w, s.outHandlers.registered s.ioaddr = true ∧
      s.replyTo (.output s.ioaddr (s.reg b)) = .returns v halt w ∧
      t = s.afterHandler halt w (.output s.ioaddr (s.reg b)) := by
  unfold outputData at h
  split at h
  · rename_i hr
    split at h
    · rename_i v halt w hq
      exact .inr ⟨v, halt, w, hr, hq, by simpa using h.symm⟩
    · cases h
  · rename_i hr
    exact .inl ⟨by simpa using hr, by simpa using h.symm⟩

/-! The ALU. -/

@[simp] theorem carryFlag_packFlags (c a e z : Bool) : carryFlag (packFlags c a e z) = c := by
  cases c <;> cases a <;> cases e <;> cases z <;> rfl

@[simp] theorem aLargerFlag_packFlags (c a e z : Bool) : aLargerFlag (packFlags c a e z) = a := by
  cases c <;> cases a <;> cases e <;> cases z <;> rfl

@[simp] theorem equalFlag_packFlags (c a e z : Bool) : equalFlag (packFlags c a e z) = e := by
  cases c <;> cases a <;> cases e <;> cases z <;> rfl

@[simp] theorem zeroFlag_packFlags (c a e z : Bool) : zeroFlag (packFlags c a e z) = z := by
  cases c <;> cases a <;> cases e <;> cases z <;> rfl

@[simp] theorem alu_c (op : AluOp) (a b : Byte) (cin : Bool) : (alu op a b cin).c = aluResult op a b cin := rfl

@[simp] theorem alu_f (op : AluOp) (a b : Byte) (cin : Bool) : (alu op a b cin).f = aluFlags op a b cin := rfl

@[simp] theorem increment_eq (v : Byte) : increment v = v + 1#8 := by
  apply BitVec.eq_of_toNat_eq
  simp [increment, alu, aluResult, addSum, BitVec.toNat_add]

@[simp] theorem clearedFlags_eq : clearedFlags = 0#4 := rfl

@[simp] theorem nextFlags_eq (op : AluOp) (f old : FlagBits) : nextFlags op f old = f := rfl

@[simp] theorem aluCarryIn_eq (f : FlagBits) : aluCarryIn f = carryFlag f := rfl

/-- The whole of an ALU-class instruction's next state. -/
theorem aluClass_eq (op : AluOp) (a b : Reg) (s : State) :
    aluClass op a b s = .next
      { s with
        regs := if op = .cmp then s.regs else writeRegister s.regs b (aluResult op (s.reg a) (s.reg b) (carryFlag s.flags))
        pc := s.pc + 1#8
        acc := aluResult op (s.reg a) (s.reg b) (carryFlag s.flags)
        tmp := s.reg b
        flags := aluFlags op (s.reg a) (s.reg b) (carryFlag s.flags) } := by
  unfold aluClass aluOn writeBack
  by_cases h : op = .cmp <;> simp [h, State.advance, afterOpcode, State.setReg]

@[simp] theorem settleLatches_eq (s : State) : settleLatches s = s := rfl

end Sys2Proof.Machine
end

