-- ==== Sys2Proof/Laws/PerInstr.lean ====
section
/-! SUPPORT. The per-instruction family EncodeLength: the encoding of an instruction has the length R45 gives it. -/

namespace Sys2Proof.Laws

/-- The encoding has the instruction's length (spec/30_encoding.md R45). -/
def EncodeLength.Statement (i : Instr) : Prop := (encode i).length = i.length

theorem EncodeLength.ld (a b : Reg) : EncodeLength.Statement (.ld a b) := rfl
theorem EncodeLength.st (a b : Reg) : EncodeLength.Statement (.st a b) := rfl
theorem EncodeLength.data (b : Reg) (imm : Byte) : EncodeLength.Statement (.data b imm) := rfl
theorem EncodeLength.jmpr (b : Reg) : EncodeLength.Statement (.jmpr b) := rfl
theorem EncodeLength.jmp (addr : Byte) : EncodeLength.Statement (.jmp addr) := rfl
theorem EncodeLength.jxxx (mask : FlagBits) (addr : Byte) : EncodeLength.Statement (.jxxx mask addr) := rfl
theorem EncodeLength.clf : EncodeLength.Statement .clf := rfl
theorem EncodeLength.ind (b : Reg) : EncodeLength.Statement (.ind b) := rfl
theorem EncodeLength.ina (b : Reg) : EncodeLength.Statement (.ina b) := rfl
theorem EncodeLength.outd (b : Reg) : EncodeLength.Statement (.outd b) := rfl
theorem EncodeLength.outa (b : Reg) : EncodeLength.Statement (.outa b) := rfl
theorem EncodeLength.add (a b : Reg) : EncodeLength.Statement (.add a b) := rfl
theorem EncodeLength.shl (a b : Reg) : EncodeLength.Statement (.shl a b) := rfl
theorem EncodeLength.shr (a b : Reg) : EncodeLength.Statement (.shr a b) := rfl
theorem EncodeLength.not (a b : Reg) : EncodeLength.Statement (.not a b) := rfl
theorem EncodeLength.and (a b : Reg) : EncodeLength.Statement (.and a b) := rfl
theorem EncodeLength.or (a b : Reg) : EncodeLength.Statement (.or a b) := rfl
theorem EncodeLength.xor (a b : Reg) : EncodeLength.Statement (.xor a b) := rfl
theorem EncodeLength.cmp (a b : Reg) : EncodeLength.Statement (.cmp a b) := rfl

end Sys2Proof.Laws
end

