-- ==== Sys2Proof/Laws/Step.lean ====
section
/-! SUPPORT. The step operations said once: one micro-cycle, one fast call, runs of micro-cycles; the class of an opcode byte
by its number; the two port transfers case by case; and where a placed instruction is fetched. -/

namespace Sys2Proof.Machine

/-! The class of an opcode byte (spec/30_encoding.md R48, R51). -/

set_option maxRecDepth 20000 in
/-- The eight non-ALU classes by their numbers, and the ALU class. -/
theorem opClass_of_number (w : Byte) :
    (w.toNat / 16 = 0 → opClass w = .ld) ∧ (w.toNat / 16 = 1 → opClass w = .st) ∧
    (w.toNat / 16 = 2 → opClass w = .data) ∧ (w.toNat / 16 = 3 → opClass w = .jmpr) ∧
    (w.toNat / 16 = 4 → opClass w = .jmp) ∧ (w.toNat / 16 = 5 → opClass w = .jxxx) ∧
    (w.toNat / 16 = 6 → opClass w = .clf) ∧ (w.toNat / 16 = 7 → opClass w = .io) ∧
    (8 ≤ w.toNat / 16 → opClass w = .alu (aluOpOfCode (fieldAluOp w))) := by
  revert w; decide

set_option maxRecDepth 20000 in
/-- The four IO submodes by the six high bits. -/
theorem ioSub_of_number (w : Byte) :
    (w.toNat / 4 = 28 → opClass w = .io ∧ ioSub w = .ind) ∧ (w.toNat / 4 = 29 → opClass w = .io ∧ ioSub w = .ina) ∧
    (w.toNat / 4 = 30 → opClass w = .io ∧ ioSub w = .outd) ∧
    (w.toNat / 4 = 31 → opClass w = .io ∧ ioSub w = .outa) := by
  revert w; decide

set_option maxRecDepth 20000 in
/-- The 2-byte classes by their numbers (R45). -/
theorem isTwoByte_iff (w : Byte) :
    isTwoByte w = true ↔ w.toNat / 16 = 2 ∨ w.toNat / 16 = 4 ∨ w.toNat / 16 = 5 := by
  revert w; decide

@[simp] theorem ioReg_eq (w : Byte) : ioReg w = regB w := rfl

/-! The step operations. -/

@[simp] theorem State.position_eq (s : State) : s.position = s.clockCycle % 7 := rfl

/-- One micro-cycle: the position's action and one more cycle. -/
theorem stepCycle_eq (s : State) :
    stepCycle s = onNext (positionAction (s.clockCycle % 7) s)
      (fun t => .next { t with clockCycle := t.clockCycle + 1 }) := rfl

/-- One fast call: the meaning after the opcode fetch and six more cycles. -/
theorem stepInstructionFast_eq (s : State) :
    stepInstructionFast s = onNext (exec s.fetchInstr s.loadOpcode)
      (fun t => .next { t with clockCycle := t.clockCycle + 6 }) := rfl

theorem runCycles_add (m n : Nat) (s : State) : runCycles (m + n) s = onNext (runCycles m s) (runCycles n) := by
  induction m generalizing s with
  | zero => simp [runCycles]
  | succ m ih =>
    rw [show m + 1 + n = (m + n) + 1 by omega]
    simp only [runCycles, onNext_assoc]
    congr 1
    funext t
    exact ih t

/-! The decoder's two computed outputs are the choices the positions make (spec/41_microcycle_engine.md R102). -/

theorem position5_jxxx {s : State} (h : opClass s.ir = .jxxx) :
    position5 s = .next (if decoderJumpTaken s.ir s.flags then { s with pc := s.readByte s.mar } else s) := by
  simp [position5, decoderJumpTaken, h]

theorem position5_alu {s : State} {op : AluOp} (h : opClass s.ir = .alu op) :
    position5 s = .next (if decoderWritesB s then s.setReg (regB s.ir) s.acc else s) := by
  by_cases hop : op = .cmp <;> simp [position5, decoderWritesB, h, hop]

/-! The port transfers, case by case (spec/44_clf_io.md R119, R120, R122). -/

theorem inputData_returns {b : Reg} {s : State} {v : Byte} {halt : Bool} {w : RegisterWrites}
    (hr : s.inHandlers.registered s.ioaddr = true) (hq : s.replyTo (.input s.ioaddr) = .returns v halt w) :
    inputData b s = .next ((s.afterHandler halt w (.input s.ioaddr v)).setReg b v) := by
  simp [inputData, hr, hq]

theorem inputData_hangs {b : Reg} {s : State} (hr : s.inHandlers.registered s.ioaddr = true)
    (hq : s.replyTo (.input s.ioaddr) = .neverReturns) : inputData b s = .fault .handlerNeverReturns := by
  simp [inputData, hr, hq]

theorem inputData_default {b : Reg} {s : State} (hr : s.inHandlers.registered s.ioaddr = false) :
    inputData b s = .next s := by
  simp [inputData, hr]

theorem outputData_returns {b : Reg} {s : State} {v : Byte} {halt : Bool} {w : RegisterWrites}
    (hr : s.outHandlers.registered s.ioaddr = true)
    (hq : s.replyTo (.output s.ioaddr (s.reg b)) = .returns v halt w) :
    outputData b s = .next (s.afterHandler halt w (.output s.ioaddr (s.reg b))) := by
  simp [outputData, hr, hq]

theorem outputData_hangs {b : Reg} {s : State} (hr : s.outHandlers.registered s.ioaddr = true)
    (hq : s.replyTo (.output s.ioaddr (s.reg b)) = .neverReturns) : outputData b s = .fault .handlerNeverReturns := by
  simp [outputData, hr, hq]

theorem outputData_default {b : Reg} {s : State} (hr : s.outHandlers.registered s.ioaddr = false) :
    outputData b s = .next s := by
  simp [outputData, hr]

/-- An instruction hangs exactly if it makes a port call whose handler never returns. -/
theorem blockedOn_iff (i : Instr) (s : State) :
    blockedOn i s ↔ ∃ c, portCallOf i s = some c ∧ s.replyTo c = .neverReturns := by
  cases i with
  | ind b => by_cases h : s.inHandlers.registered s.ioaddr = true <;> simp [blockedOn, portCallOf, h]
  | outd b => by_cases h : s.outHandlers.registered s.ioaddr = true <;> simp [blockedOn, portCallOf, h]
  | _ => simp [blockedOn, portCallOf]

/-! What a state with `running` cleared reads as: everything but `running` as before. -/

@[simp] theorem State.halted_running (s : State) : s.halted.running = false := rfl
@[simp] theorem State.reg_halted (s : State) (r : Reg) : s.halted.reg r = s.reg r := rfl
@[simp] theorem State.readByte_halted (s : State) (a : Byte) : s.halted.readByte a = s.readByte a := rfl
@[simp] theorem State.fetchInstr_halted (s : State) : s.halted.fetchInstr = s.fetchInstr := rfl
@[simp] theorem State.loadOpcode_halted (s : State) : s.halted.loadOpcode = s.loadOpcode.halted := rfl
@[simp] theorem portCallOf_halted (i : Instr) (s : State) : portCallOf i s.halted = portCallOf i s := by cases i <;> rfl

/-! Where a placed instruction is fetched. -/

/-- The instruction placed at PC is the one the next step fetches. -/
theorem fetchInstr_withFetchWord (s : State) (nbits w : Nat) :
    (s.withFetchWord nbits w).fetchInstr =
      decodeOp (BitVec.ofNat 8 (w % 2 ^ nbits)) (BitVec.ofNat 8 (w % 2 ^ nbits / 256)) := by
  have hne : s.pc + 1#8 ≠ s.pc := by
    intro h
    have := congrArg BitVec.toNat h
    simp only [BitVec.toNat_add, BitVec.toNat_ofNat] at this
    omega
  have hread : ∀ a : Byte, (s.withFetchWord nbits w).readByte a =
      ((s.writeByte (afterOpcode s) (BitVec.ofNat 8 (w % 2 ^ nbits / 256))).writeByte s.pc
        (BitVec.ofNat 8 (w % 2 ^ nbits))).readByte a := fun _ => rfl
  have hpc : (s.withFetchWord nbits w).pc = s.pc := rfl
  simp only [State.fetchInstr, hread, hpc, afterOpcode, increment_eq, State.readByte_writeByte, hne, if_false, if_true]

end Sys2Proof.Machine
end

