-- ==== Sys2Proof/Tests/Slice0.lean ====
section
/-! SUPPORT. Tests. Expected values are those of the spec's tables: spec/95_test_vectors.md Parts 1 to 5, and the encodings of
spec/30_encoding.md R47, R48, R51. Then, for every statement with hypotheses, states and operands that meet them. -/

namespace Sys2Proof.Machine

open Sys2Proof

/-! ## Well-formedness: what is refused, check by check -/

/-- No byte at all (R45). -/
theorem test_wf_empty_refused : wellFormedBytes [] = false := by decide

/-- DATA without its second byte (R45). -/
theorem test_wf_truncated_refused : wellFormedBytes [0x20#8] = false := by decide

/-- CLF with a second byte (R45). -/
theorem test_wf_overlong_refused : wellFormedBytes [0x60#8, 0x00#8] = false := by decide

/-- Three bytes are no instruction (R45). -/
theorem test_wf_three_bytes_refused : wellFormedBytes [0x20#8, 0x05#8, 0x00#8] = false := by decide

/-- Unused bits set in DATA, JMPR, JMP and CLF are not canonical (R53, D10). -/
theorem test_wf_unused_bits_refused :
    wellFormedBytes [0x2D#8, 0xFF#8] = false ∧ wellFormedBytes [0x38#8] = false ∧
    wellFormedBytes [0x4F#8, 0x00#8] = false ∧ wellFormedBytes [0x6F#8] = false := by decide

/-- Canonical encodings are accepted, and every instruction is well-formed (R53). -/
theorem test_wf_canonical_accepted :
    wellFormedBytes [0x20#8, 0x05#8] = true ∧ wellFormedBytes [0x81#8] = true ∧
    wellFormedBytes [0x5F#8, 0x20#8] = true ∧ (Instr.data .ra 5#8).wellFormed = true := by decide

/-! ## Decoding: words written out from the spec's encodings -/

/-- What a byte string decodes to with nothing left over, or nothing. -/
def decodedWhole (bytes : List Byte) : Option Instr :=
  match decode bytes with
  | .ok (i, []) => some i
  | .ok (_, _ :: _) | .error _ => none

/-- The name a byte string is rejected with. -/
def rejectedWith (bytes : List Byte) : Option DecodeError :=
  match decode bytes with
  | .ok _ => none
  | .error e => some e

/-- 0000 10 01. -/
theorem test_decode_ld : decodedWhole [0x09#8] = some (.ld .rc .rb) := by decide

/-- 0001 00 11. -/
theorem test_decode_st : decodedWhole [0x13#8] = some (.st .ra .rd) := by decide

/-- 0010 uu 00, iiiiiiii. -/
theorem test_decode_data : decodedWhole [0x20#8, 0x05#8] = some (.data .ra 5#8) := by decide

/-- 0011 uu 01. -/
theorem test_decode_jmpr : decodedWhole [0x31#8] = some (.jmpr .rb) := by decide

/-- 0100 uuuu, iiiiiiii. -/
theorem test_decode_jmp : decodedWhole [0x40#8, 0xFF#8] = some (.jmp 255#8) := by decide

/-- 0101 1100, iiiiiiii: JCA. -/
theorem test_decode_jxxx : decodedWhole [0x5C#8, 0x80#8] = some (.jxxx 12#4 0x80#8) := by decide

/-- 0110 uuuu. -/
theorem test_decode_clf : decodedWhole [0x60#8] = some (.clf) := by decide

/-- 0111 00 01. -/
theorem test_decode_ind : decodedWhole [0x71#8] = some (.ind .rb) := by decide

/-- 0111 01 10. -/
theorem test_decode_ina : decodedWhole [0x76#8] = some (.ina .rc) := by decide

/-- 0111 10 00. -/
theorem test_decode_outd : decodedWhole [0x78#8] = some (.outd .ra) := by decide

/-- 0111 11 11. -/
theorem test_decode_outa : decodedWhole [0x7F#8] = some (.outa .rd) := by decide

/-- 1000 11 10. -/
theorem test_decode_add : decodedWhole [0x8E#8] = some (.add .rd .rc) := by decide

/-- 1001 00 01. -/
theorem test_decode_shl : decodedWhole [0x91#8] = some (.shl .ra .rb) := by decide

/-- 1010 11 11. -/
theorem test_decode_shr : decodedWhole [0xAF#8] = some (.shr .rd .rd) := by decide

/-- 1011 01 00. -/
theorem test_decode_not : decodedWhole [0xB4#8] = some (.not .rb .ra) := by decide

/-- 1100 10 10. -/
theorem test_decode_and : decodedWhole [0xCA#8] = some (.and .rc .rc) := by decide

/-- 1101 00 01. -/
theorem test_decode_or : decodedWhole [0xD1#8] = some (.or .ra .rb) := by decide

/-- 1110 01 00. -/
theorem test_decode_xor : decodedWhole [0xE4#8] = some (.xor .rb .ra) := by decide

/-- 1111 00 01. -/
theorem test_decode_cmp : decodedWhole [0xF1#8] = some (.cmp .ra .rb) := by decide

/-- Unused bits are ignored: 0x2D is DATA RB, 0x38 JMPR RA, 0x4F JMP, 0x6F CLF (R53). -/
theorem test_decode_ignores_unused_bits :
    decodedWhole [0x2D#8, 0xFF#8] = some (.data .rb 0xFF#8) ∧ decodedWhole [0x38#8] = some (.jmpr .ra) ∧
    decodedWhole [0x4F#8, 0x00#8] = some (.jmp 0#8) ∧ decodedWhole [0x6F#8] = some .clf := by decide

/-- A string that ends before its instruction is rejected by name (R45). -/
theorem test_decode_rejects_truncated :
    rejectedWith [] = some .noOpcode ∧ rejectedWith [0x20#8] = some .noSecondByte ∧
    rejectedWith [0x40#8] = some .noSecondByte ∧ rejectedWith [0x5F#8] = some .noSecondByte := by decide

/-- The mnemonic table's samples of scenario S5. -/
theorem test_mnemonic_table_samples :
    mnemonicTable 0x81#8 = ⟨"ADD", 8#4, 0#2, 1#2⟩ ∧ mnemonicTable 0x1B#8 = ⟨"ST", 1#4, 2#2, 3#2⟩ ∧
    mnemonicTable 0x78#8 = ⟨"OUTD", 7#4, 2#2, 0#2⟩ ∧ mnemonicTable 0x51#8 = ⟨"JZ", 5#4, 0#2, 1#2⟩ ∧
    mnemonicTable 0x5F#8 = ⟨"JCAEZ", 5#4, 3#2, 3#2⟩ ∧ mnemonicTable 0x50#8 = ⟨"J0", 5#4, 0#2, 0#2⟩ := by decide

/-! ## One instruction, from its state to the next boundary (Part 3) -/

/-- A state of Part 3: program counter, registers, FLAGS and the RAM bytes that matter; the rest as after reset. -/
def start (pc : Byte) (g : Registers) (f : FlagBits) (bytes : Memory) : State :=
  { State.reset with pc := pc, regs := g, flags := f, ram := bytes }

/-- What a row of Part 3 shows of the end state: PC, registers, FLAGS, and the latches IR MAR ACC TMP. -/
def row (o : Host.Outcome State Fault Refusal) : Option (Byte × Registers × FlagBits × List Byte) :=
  match o with
  | .next t => some (t.pc, t.regs, t.flags, [t.ir, t.mar, t.acc, t.tmp])
  | .fault _ | .refused _ => none

/-- One reading of the end state. -/
def endsWith {α : Type} (o : Host.Outcome State Fault Refusal) (read : State → α) : Option α :=
  match o with
  | .next t => some (read t)
  | .fault _ | .refused _ => none

/-- The same start with the driver calling `step_instruction()`. -/
def State.micro (s : State) : State := { s with driver := .instruction }

/-- LD RC,RB, fast engine. -/
theorem test_ld :
    row (step (start 0x10#8 ⟨0x00#8, 0x11#8, 0x40#8, 0x00#8⟩ 0xD#4 [(0x10, 0x09#8), (0x40, 0x99#8)])) =
      some (0x11#8, ⟨0x00#8, 0x99#8, 0x40#8, 0x00#8⟩, 0xD#4, [0x09#8, 0x40#8, 0x11#8, 0x00#8]) := by decide

/-- LD RD,RA at FF reads its own opcode, PC wraps; micro-cycles. -/
theorem test_ld_wraps :
    row (step (start 0xFF#8 ⟨0x55#8, 0x00#8, 0x00#8, 0xFF#8⟩ 0x2#4 [(0xFF, 0x0C#8)]).micro) =
      some (0x00#8, ⟨0x0C#8, 0x00#8, 0x00#8, 0xFF#8⟩, 0x2#4, [0x0C#8, 0xFF#8, 0x00#8, 0x00#8]) := by decide

/-- ST RA,RD: RAM[80] = 2A, and the registers kept. -/
theorem test_st :
    endsWith (step (start 0x10#8 ⟨0x80#8, 0x00#8, 0x00#8, 0x2A#8⟩ 0x8#4 [(0x10, 0x13#8)])) (fun t => (t.ram, t.regs, t.mar)) =
      some ([(0x10, 0x13#8), (0x80, 0x2A#8)], ⟨0x80#8, 0x00#8, 0x00#8, 0x2A#8⟩, 0x80#8) := by decide

/-- ST RA,RB into the next instruction's byte: the next fetch is CLF; micro-cycles (R41). -/
theorem test_st_next_instruction :
    endsWith (step (start 0x00#8 ⟨0x01#8, 0x60#8, 0x00#8, 0x00#8⟩ 0x0#4 [(0x00, 0x11#8)]).micro) (fun t => (t.pc, t.fetchInstr)) =
      some (0x01#8, Instr.clf) := by decide

/-- DATA RB,FF with unused A bits 11 (byte 2D). -/
theorem test_data :
    row (step (start 0x30#8 ⟨0x01#8, 0x02#8, 0x03#8, 0x04#8⟩ 0xA#4 [(0x30, 0x2D#8), (0x31, 0xFF#8)])) =
      some (0x32#8, ⟨0x01#8, 0xFF#8, 0x03#8, 0x04#8⟩, 0xA#4, [0x2D#8, 0x31#8, 0x32#8, 0x00#8]) := by decide

/-- DATA RC,77 at FF: the immediate is RAM[00]; flags kept; micro-cycles. -/
theorem test_data_wraps :
    row (step (start 0xFF#8 ⟨0x00#8, 0x00#8, 0x00#8, 0x00#8⟩ 0x8#4 [(0x00, 0x77#8), (0xFF, 0x22#8)]).micro) =
      some (0x01#8, ⟨0x00#8, 0x00#8, 0x77#8, 0x00#8⟩, 0x8#4, [0x22#8, 0x00#8, 0x01#8, 0x00#8]) := by decide

/-- JMPR RB. -/
theorem test_jmpr :
    row (step (start 0x05#8 ⟨0x00#8, 0x10#8, 0x00#8, 0x00#8⟩ 0xC#4 [(0x05, 0x31#8)])) =
      some (0x10#8, ⟨0x00#8, 0x10#8, 0x00#8, 0x00#8⟩, 0xC#4, [0x31#8, 0x05#8, 0x06#8, 0x00#8]) := by decide

/-- JMPR RD to 00 from FF; micro-cycles. -/
theorem test_jmpr_from_ff :
    row (step (start 0xFF#8 ⟨0x09#8, 0x09#8, 0x09#8, 0x00#8⟩ 0x0#4 [(0xFF, 0x33#8)]).micro) =
      some (0x00#8, ⟨0x09#8, 0x09#8, 0x09#8, 0x00#8⟩, 0x0#4, [0x33#8, 0xFF#8, 0x00#8, 0x00#8]) := by decide

/-- JMP FF. -/
theorem test_jmp :
    row (step (start 0x10#8 ⟨0x00#8, 0x00#8, 0x00#8, 0x00#8⟩ 0x3#4 [(0x10, 0x40#8), (0x11, 0xFF#8)])) =
      some (0xFF#8, ⟨0x00#8, 0x00#8, 0x00#8, 0x00#8⟩, 0x3#4, [0x40#8, 0x11#8, 0x11#8, 0x00#8]) := by decide

/-- JMP at FF: the target byte is RAM[00]; micro-cycles. -/
theorem test_jmp_wraps :
    row (step (start 0xFF#8 ⟨0x00#8, 0x00#8, 0x00#8, 0x00#8⟩ 0x0#4 [(0x00, 0x42#8), (0xFF, 0x40#8)]).micro) =
      some (0x42#8, ⟨0x00#8, 0x00#8, 0x00#8, 0x00#8⟩, 0x0#4, [0x40#8, 0x00#8, 0x00#8, 0x00#8]) := by decide

/-- JCA 80 with only A set: taken, an OR and not an AND. -/
theorem test_jxxx_taken :
    row (step (start 0x40#8 ⟨0x00#8, 0x00#8, 0x00#8, 0x00#8⟩ 0x4#4 [(0x40, 0x5C#8), (0x41, 0x80#8)])) =
      some (0x80#8, ⟨0x00#8, 0x00#8, 0x00#8, 0x00#8⟩, 0x4#4, [0x5C#8, 0x41#8, 0x42#8, 0x00#8]) := by decide

/-- JE 00 at FE, not taken: falls through to 00; micro-cycles. -/
theorem test_jxxx_falls_through :
    row (step (start 0xFE#8 ⟨0x00#8, 0x00#8, 0x00#8, 0x00#8⟩ 0x4#4 [(0xFE, 0x52#8)]).micro) =
      some (0x00#8, ⟨0x00#8, 0x00#8, 0x00#8, 0x00#8⟩, 0x4#4, [0x52#8, 0xFF#8, 0x00#8, 0x00#8]) := by decide

/-- CLF with CAZ set before. -/
theorem test_clf :
    row (step (start 0x00#8 ⟨0x01#8, 0x02#8, 0x03#8, 0x04#8⟩ 0xD#4 [(0x00, 0x60#8)])) =
      some (0x01#8, ⟨0x01#8, 0x02#8, 0x03#8, 0x04#8⟩, 0x0#4, [0x60#8, 0x00#8, 0x01#8, 0x00#8]) := by decide

/-- Scenario S7: CLF by `step_instruction()` from reset: FLAGS 0 and clock_cycle 7. -/
theorem test_clf_clock :
    endsWith (step (start 0x00#8 ⟨0x00#8, 0x00#8, 0x00#8, 0x00#8⟩ 0x0#4 [(0x00, 0x60#8)]).micro) (fun t => (t.flags, t.clockCycle)) =
      some (0#4, 7) := by decide

/-! The handlers of Part 3.3, as the replies they give. -/

/-- A reply that returns a byte and touches nothing. -/
def plainReply (v : Byte) : PortReply := .returns v false ⟨none, none, none, none⟩

/-- `KW`: sets x[1] to 11 and x[2] to 22 and returns 33. -/
def replyKW : PortReply := .returns 0x33#8 false ⟨none, some 0x11#8, some 0x22#8, none⟩

/-- `HALT` and `KH`: clears `running`, and returns 00. -/
def replyHalt : PortReply := .returns 0x00#8 true ⟨none, none, none, none⟩

/-- `INC` for the byte FF: sets x[0] to 00. -/
def replyIncFF : PortReply := .returns 0x00#8 false ⟨some 0x00#8, none, none, none⟩

/-- A start with IOADDR, an input and an output handler registered there, and their next reply. -/
def State.withPort (s : State) (p : Byte) (r : PortReply) : State :=
  { (s.registerInput p).registerOutput p with ioaddr := p, replies := [r] }

/-- IND RB, `KW` at input port 0: the returned byte wins over the handler's own write of RB, its write of RC stays. -/
theorem test_ind_returned_byte_wins :
    endsWith (step ((start 0x00#8 ⟨0x00#8, 0xEE#8, 0x00#8, 0x00#8⟩ 0x0#4 [(0x00, 0x71#8)]).withPort 0#8 replyKW))
      (fun t => (t.regs, t.traffic, t.pc)) = some (⟨0x00#8, 0x33#8, 0x22#8, 0x00#8⟩, [.input 0#8 0x33#8], 0x01#8) := by decide

/-- IND RB with no handler at the port: register kept, no call, flags kept; micro-cycles. -/
theorem test_ind_default_slot :
    endsWith (step { (start 0x00#8 ⟨0x00#8, 0xEE#8, 0x00#8, 0x00#8⟩ 0x9#4 [(0x00, 0x71#8)]).micro with ioaddr := 3#8 })
      (fun t => (t.regs, t.traffic, t.flags)) = some (⟨0x00#8, 0xEE#8, 0x00#8, 0x00#8⟩, [], 0x9#4) := by decide

/-- INA RC with IOADDR 07: a handler at port 7 is not called. -/
theorem test_ina :
    endsWith (step ((start 0x00#8 ⟨0x01#8, 0x02#8, 0x03#8, 0x04#8⟩ 0x0#4 [(0x00, 0x76#8)]).withPort 7#8 replyHalt))
      (fun t => (t.regs, t.traffic)) = some (⟨0x01#8, 0x02#8, 0x07#8, 0x04#8⟩, []) := by decide

/-- INA RA under the micro-cycle engine (MICRO_INA = readback). -/
theorem test_ina_micro :
    endsWith (step (start 0x09#8 ⟨0xAA#8, 0x00#8, 0x00#8, 0x00#8⟩ 0x0#4 [(0x09, 0x74#8)]).micro) (fun t => (t.regs, t.pc)) =
      some (⟨0x00#8, 0x00#8, 0x00#8, 0x00#8⟩, 0x0A#8) := by decide

/-- OUTD RC, `HALT` at output port 1: `running` cleared, and PC still advances. -/
theorem test_outd_halts :
    endsWith (step ((start 0x11#8 ⟨0x00#8, 0x00#8, 0xEF#8, 0x00#8⟩ 0x2#4 [(0x11, 0x7A#8)]).withPort 1#8 replyHalt))
      (fun t => (t.pc, t.running, t.traffic)) = some (0x12#8, false, [.output 1#8 0xEF#8]) := by decide

/-- OUTD RA, `INC` at output port 2: the byte passed is the old x[0], and the handler writes a register; micro-cycles. -/
theorem test_outd_handler_writes :
    endsWith (step ((start 0x00#8 ⟨0xFF#8, 0x00#8, 0x00#8, 0x00#8⟩ 0x0#4 [(0x00, 0x78#8)]).micro.withPort 2#8 replyIncFF))
      (fun t => (t.regs, t.running, t.traffic)) =
      some (⟨0x00#8, 0x00#8, 0x00#8, 0x00#8⟩, true, [.output 2#8 0xFF#8]) := by decide

/-- OUTA RD. -/
theorem test_outa :
    endsWith (step { (start 0x00#8 ⟨0x00#8, 0x00#8, 0x00#8, 0x0A#8⟩ 0x0#4 [(0x00, 0x7F#8)]) with ioaddr := 1#8 }) (fun t => (t.ioaddr, t.pc)) =
      some (0x0A#8, 0x01#8) := by decide

/-- OUTA RA to FF, flags kept; micro-cycles. -/
theorem test_outa_flags_kept :
    endsWith (step (start 0x00#8 ⟨0xFF#8, 0x00#8, 0x00#8, 0x00#8⟩ 0xD#4 [(0x00, 0x7C#8)]).micro) (fun t => (t.ioaddr, t.flags)) =
      some (0xFF#8, 0xD#4) := by decide

/-- ADD RA,RB with CARRY set before: 200 + 100 + 1. -/
theorem test_add :
    row (step (start 0x00#8 ⟨0xC8#8, 0x64#8, 0x00#8, 0x00#8⟩ 0x8#4 [(0x00, 0x81#8)])) =
      some (0x01#8, ⟨0xC8#8, 0x2D#8, 0x00#8, 0x00#8⟩, 0xC#4, [0x81#8, 0x00#8, 0x2D#8, 0x64#8]) := by decide

/-- ADD RD,RC at FF: FF + 01, PC wraps; micro-cycles. -/
theorem test_add_wraps :
    row (step (start 0xFF#8 ⟨0x00#8, 0x00#8, 0x01#8, 0xFF#8⟩ 0x0#4 [(0xFF, 0x8E#8)]).micro) =
      some (0x00#8, ⟨0x00#8, 0x00#8, 0x00#8, 0xFF#8⟩, 0xD#4, [0x8E#8, 0xFF#8, 0x00#8, 0x01#8]) := by decide

/-- SHL RA,RB with CARRY. -/
theorem test_shl :
    row (step (start 0x00#8 ⟨0x55#8, 0xAA#8, 0x00#8, 0x00#8⟩ 0x8#4 [(0x00, 0x91#8)])) =
      some (0x01#8, ⟨0x55#8, 0xAB#8, 0x00#8, 0x00#8⟩, 0x0#4, [0x91#8, 0x00#8, 0xAB#8, 0xAA#8]) := by decide

/-- SHL RC,RC with CARRY; micro-cycles. -/
theorem test_shl_in_place :
    row (step (start 0x00#8 ⟨0x00#8, 0x00#8, 0xC0#8, 0x00#8⟩ 0x9#4 [(0x00, 0x9A#8)]).micro) =
      some (0x01#8, ⟨0x00#8, 0x00#8, 0x81#8, 0x00#8⟩, 0xA#4, [0x9A#8, 0x00#8, 0x81#8, 0xC0#8]) := by decide

/-- SHR RA,RB with CARRY. -/
theorem test_shr :
    row (step (start 0x00#8 ⟨0xAA#8, 0x55#8, 0x00#8, 0x00#8⟩ 0x8#4 [(0x00, 0xA1#8)])) =
      some (0x01#8, ⟨0xAA#8, 0xD5#8, 0x00#8, 0x00#8⟩, 0x4#4, [0xA1#8, 0x00#8, 0xD5#8, 0x55#8]) := by decide

/-- SHR RA,RA in place; micro-cycles. -/
theorem test_shr_in_place :
    row (step (start 0x00#8 ⟨0x01#8, 0x00#8, 0x00#8, 0x00#8⟩ 0x0#4 [(0x00, 0xA0#8)]).micro) =
      some (0x01#8, ⟨0x00#8, 0x00#8, 0x00#8, 0x00#8⟩, 0xB#4, [0xA0#8, 0x00#8, 0x00#8, 0x01#8]) := by decide

/-- NOT RA,RB clears a stale CARRY. -/
theorem test_not :
    row (step (start 0x00#8 ⟨0x0F#8, 0xF0#8, 0x00#8, 0x00#8⟩ 0x8#4 [(0x00, 0xB1#8)])) =
      some (0x01#8, ⟨0x0F#8, 0xF0#8, 0x00#8, 0x00#8⟩, 0x0#4, [0xB1#8, 0x00#8, 0xF0#8, 0xF0#8]) := by decide

/-- NOT RA,RA of FF; micro-cycles. -/
theorem test_not_of_ff :
    row (step (start 0x00#8 ⟨0xFF#8, 0x00#8, 0x00#8, 0x00#8⟩ 0x8#4 [(0x00, 0xB0#8)]).micro) =
      some (0x01#8, ⟨0x00#8, 0x00#8, 0x00#8, 0x00#8⟩, 0x3#4, [0xB0#8, 0x00#8, 0x00#8, 0xFF#8]) := by decide

/-- AND RA,RB, disjoint bits. -/
theorem test_and :
    row (step (start 0x00#8 ⟨0xF0#8, 0x0F#8, 0x00#8, 0x00#8⟩ 0x8#4 [(0x00, 0xC1#8)])) =
      some (0x01#8, ⟨0xF0#8, 0x00#8, 0x00#8, 0x00#8⟩, 0x5#4, [0xC1#8, 0x00#8, 0x00#8, 0x0F#8]) := by decide

/-- AND RC,RC of 00; micro-cycles. -/
theorem test_and_zero_test :
    row (step (start 0x00#8 ⟨0x00#8, 0x00#8, 0x00#8, 0x00#8⟩ 0xC#4 [(0x00, 0xCA#8)]).micro) =
      some (0x01#8, ⟨0x00#8, 0x00#8, 0x00#8, 0x00#8⟩, 0x3#4, [0xCA#8, 0x00#8, 0x00#8, 0x00#8]) := by decide

/-- OR RA,RB. -/
theorem test_or :
    row (step (start 0x00#8 ⟨0xF0#8, 0x0F#8, 0x00#8, 0x00#8⟩ 0x8#4 [(0x00, 0xD1#8)])) =
      some (0x01#8, ⟨0xF0#8, 0xFF#8, 0x00#8, 0x00#8⟩, 0x4#4, [0xD1#8, 0x00#8, 0xFF#8, 0x0F#8]) := by decide

/-- OR RD,RD of 00; micro-cycles. -/
theorem test_or_of_zero :
    row (step (start 0x00#8 ⟨0x01#8, 0x01#8, 0x01#8, 0x00#8⟩ 0x0#4 [(0x00, 0xDF#8)]).micro) =
      some (0x01#8, ⟨0x01#8, 0x01#8, 0x01#8, 0x00#8⟩, 0x3#4, [0xDF#8, 0x00#8, 0x00#8, 0x00#8]) := by decide

/-- XOR RB,RA: input a is x[1], input b is x[0]. -/
theorem test_xor :
    row (step (start 0x00#8 ⟨0x02#8, 0x01#8, 0x00#8, 0x00#8⟩ 0x0#4 [(0x00, 0xE4#8)])) =
      some (0x01#8, ⟨0x03#8, 0x01#8, 0x00#8, 0x00#8⟩, 0x0#4, [0xE4#8, 0x00#8, 0x03#8, 0x02#8]) := by decide

/-- XOR RA,RA; micro-cycles. -/
theorem test_xor_clears :
    row (step (start 0x00#8 ⟨0x77#8, 0x00#8, 0x00#8, 0x00#8⟩ 0x8#4 [(0x00, 0xE0#8)]).micro) =
      some (0x01#8, ⟨0x00#8, 0x00#8, 0x00#8, 0x00#8⟩, 0x3#4, [0xE0#8, 0x00#8, 0x00#8, 0x77#8]) := by decide

/-- CMP RA,RB: a larger; the old CARRY and ZERO are gone. -/
theorem test_cmp :
    row (step (start 0x00#8 ⟨0x05#8, 0x03#8, 0x00#8, 0x00#8⟩ 0x9#4 [(0x00, 0xF1#8)])) =
      some (0x01#8, ⟨0x05#8, 0x03#8, 0x00#8, 0x00#8⟩, 0x4#4, [0xF1#8, 0x00#8, 0x00#8, 0x03#8]) := by decide

/-- CMP RA,RB, both 00: EQUAL and not ZERO; micro-cycles. -/
theorem test_cmp_of_zeros :
    row (step (start 0x00#8 ⟨0x00#8, 0x00#8, 0x09#8, 0x09#8⟩ 0x1#4 [(0x00, 0xF1#8)]).micro) =
      some (0x01#8, ⟨0x00#8, 0x00#8, 0x09#8, 0x09#8⟩, 0x2#4, [0xF1#8, 0x00#8, 0x00#8, 0x00#8]) := by decide

/-! ## One micro-cycle (Part 4) -/

/-- T1, after position 4: ACC and FLAGS latched, the register not yet written. -/
theorem test_trace_add_position_4 :
    row (stepCycle { (start 0x06#8 ⟨0xF0#8, 0x20#8, 0x00#8, 0x00#8⟩ 0x0#4 [(0x05, 0x81#8)]) with
      ir := 0x81#8, mar := 0x05#8, acc := 0x06#8, tmp := 0x20#8, clockCycle := 4 }) =
      some (0x06#8, ⟨0xF0#8, 0x20#8, 0x00#8, 0x00#8⟩, 0xC#4, [0x81#8, 0x05#8, 0x10#8, 0x20#8]) := by decide

/-- T2, after position 5: the taken jump. -/
theorem test_trace_jz_position_5 :
    row (stepCycle { (start 0x0E#8 ⟨0x00#8, 0x2A#8, 0x07#8, 0xFF#8⟩ 0xD#4 [(0x0C, 0x51#8), (0x0D, 0x10#8)]) with
      ir := 0x51#8, mar := 0x0D#8, acc := 0x0E#8, tmp := 0x01#8, clockCycle := 5 }) =
      some (0x10#8, ⟨0x00#8, 0x2A#8, 0x07#8, 0xFF#8⟩, 0xD#4, [0x51#8, 0x0D#8, 0x0E#8, 0x01#8]) := by decide

/-- T7, after position 3: CLF captures no result byte. -/
theorem test_trace_clf_position_3 :
    row (stepCycle { (start 0x01#8 ⟨0x00#8, 0x00#8, 0x00#8, 0x00#8⟩ 0xD#4 [(0x00, 0x60#8)]) with
      ir := 0x60#8, acc := 0x01#8, tmp := 0x44#8, clockCycle := 3 }) =
      some (0x01#8, ⟨0x00#8, 0x00#8, 0x00#8, 0x00#8⟩, 0#4, [0x60#8, 0x00#8, 0x01#8, 0x44#8]) := by decide

/-- T8: a `step_cycle()` at clock_cycle 30 after five fast calls performs position 2 and corrupts PC. -/
theorem test_trace_engine_mixing :
    endsWith (stepCycle { (start 0x05#8 ⟨0x40#8, 0x42#8, 0x00#8, 0x00#8⟩ 0x4#4 [(0x00, 0x60#8), (0x04, 0x81#8)]) with
      ir := 0x81#8, acc := 0x42#8, clockCycle := 30 }) (fun t => (t.pc, t.clockCycle)) = some (0x42#8, 31) := by decide

/-! ## Memory, reset, boot, halt -/

/-- Writing 0 unlists the cell, and a write keeps the order. -/
theorem test_memory_canonical :
    Memory.write [(0x10, 0x01#8), (0x30, 0x03#8)] 0x20 0x02#8 = [(0x10, 0x01#8), (0x20, 0x02#8), (0x30, 0x03#8)] ∧
    Memory.write [(0x10, 0x01#8), (0x30, 0x03#8)] 0x10 0#8 = [(0x30, 0x03#8)] := by decide

/-- An image of 258 bytes loses its last two, and the zeros are not listed (R163). -/
theorem test_image_truncated :
    (State.reset.loadImage (List.replicate 255 0#8 ++ [0x80#8, 0x11#8, 0x22#8])).ram = [(255, 0x80#8)] := by
  set_option maxRecDepth 10000 in decide

/-- Reset in mid-run discards image and handlers (R161). -/
theorem test_reset_call :
    ((start 0x11#8 ⟨0x00#8, 0x00#8, 0xEF#8, 0x00#8⟩ 0x2#4 [(0x11, 0x7A#8)]).registerOutput 1#8).resetCall = State.reset := by decide

/-- The driver makes no call once a boundary has `running` false (R150). -/
theorem test_driver_stops :
    endsWith (drive 3 ((start 0x11#8 ⟨0x00#8, 0x00#8, 0xEF#8, 0x00#8⟩ 0x2#4 [(0x11, 0x7A#8)]).withPort 1#8 replyHalt))
      (fun t => (t.pc, t.running, t.clockCycle)) = some (0x12#8, false, 6) := by decide

/-- From reset with a word placed where the fetch reads, the next step runs it. -/
theorem test_with_fetch_word :
    row (step (State.reset.withFetchWord 16 0x0521)) =
      some (0x02#8, ⟨0x00#8, 0x05#8, 0x00#8, 0x00#8⟩, 0#4, [0x21#8, 0x01#8, 0x02#8, 0x00#8]) := by decide

/-! ## Witnesses: the hypotheses of the statements can be met -/
/-- ADD RA,RB at 00: 200 + 100. -/
def wAdd : State := start 0x00#8 ⟨0xC8#8, 0x64#8, 0#8, 0#8⟩ 0#4 [(0x00, 0x81#8)]

/-- IND RB at 00 with `KW` at input port 0. -/
def wInd : State := (start 0x00#8 ⟨0#8, 0xEE#8, 0#8, 0#8⟩ 0#4 [(0x00, 0x71#8)]).withPort 0#8 replyKW

/-- OUTD RA at 00 with `HALT` at output port FF. -/
def wOutd : State := (start 0x00#8 ⟨0x05#8, 0#8, 0#8, 0#8⟩ 0#4 [(0x00, 0x78#8)]).withPort 0xFF#8 replyHalt

/-- IND RB at 00 with a handler that never returns. -/
def wHangIn : State := (start 0x00#8 ⟨0#8, 0#8, 0#8, 0#8⟩ 0#4 [(0x00, 0x71#8)]).withPort 0#8 .neverReturns

/-- OUTD RA at 00 with a handler that never returns. -/
def wHangOut : State := (start 0x00#8 ⟨0#8, 0#8, 0#8, 0#8⟩ 0#4 [(0x00, 0x78#8)]).withPort 0#8 .neverReturns

/-- ST RA,RB at 20, storing 60 at the address in RA. -/
def wStore (a : Byte) : State := start 0x20#8 ⟨a, 0x60#8, 0#8, 0#8⟩ 0#4 [(0x20, 0x11#8)]

theorem test_witness_DecodeOfEncodeIsTheInstruction : (Instr.jxxx 9#4 0x20#8).wellFormed = true := rfl

/-- The first and the last byte of each class and of each IO submode; and so for the encoding clause of each instruction's
own statement. -/
theorem test_witness_DecodeFunctionByClass :
    (∀ c : Fin 16, (BitVec.ofNat 8 (16 * c.val)).toNat / 16 = c.val ∧
      (BitVec.ofNat 8 (16 * c.val + 15)).toNat / 16 = c.val) ∧
    (∀ m : Fin 4, (BitVec.ofNat 8 (112 + 4 * m.val)).toNat / 4 = 28 + m.val ∧
      (BitVec.ofNat 8 (115 + 4 * m.val)).toNat / 4 = 28 + m.val) ∧
    8 ≤ (0x80#8).toNat / 16 ∧ 8 ≤ (0xFF#8).toNat / 16 := by decide

theorem test_witness_EveryByteIsAnInstruction :
    isTwoByte 0x1F#8 = false ∧ isTwoByte 0x30#8 = false ∧ isTwoByte 0x60#8 = false ∧ isTwoByte 0xFF#8 = false := by
  decide

theorem test_witness_invariant : State.reset.Inv ∧ wInd.Inv :=
  ⟨⟨by decide, by decide, by decide, by decide⟩, ⟨by decide, by decide, by decide, by decide⟩⟩

theorem test_witness_RegistrationFillsOneSlot : wInd.Inv := test_witness_invariant.2

theorem test_witness_WriteThenReadRam : wAdd.ram.wf ∧ wAdd.ram ≠ [] := by decide

theorem test_witness_FastStepRunsTheDecodedInstruction :
    wAdd.driver = .fast ∧ decode wAdd.fetchBytes = .ok (.add .ra .rb, [0#8]) ∧
    (Instr.add .ra .rb).wellFormed = true := ⟨rfl, rfl, rfl⟩

theorem test_witness_MicroStepsRunTheDecodedInstruction :
    wAdd.micro.position = 0 ∧ decode wAdd.micro.fetchBytes = .ok (.add .ra .rb, [0#8]) ∧
    (Instr.add .ra .rb).wellFormed = true ∧ wAdd.micro.driver = .instruction := ⟨rfl, rfl, rfl, rfl⟩

theorem test_witness_StepKeepsTheInvariant :
    wInd.Inv ∧ (∃ t, step wInd = .next t) ∧ (∃ t, step wInd.micro = .next t) ∧
    (∃ t, step { wInd with driver := .cycle } = .next t) :=
  ⟨test_witness_invariant.2, ⟨_, rfl⟩, ⟨_, rfl⟩, ⟨_, rfl⟩⟩

theorem test_witness_StepStopsOnlyOnABlockedHandler :
    (wHangIn.driver = .fast ∧ blockedOn wHangIn.fetchInstr wHangIn) ∧
    (wHangOut.driver = .fast ∧ blockedOn wHangOut.fetchInstr wHangOut) ∧
    ({ wHangIn with driver := .cycle, clockCycle := 3, ir := 0x71#8 } : State).position = 3 ∧
    blockedOn (decodeOp 0x71#8 0#8) { wHangIn with driver := .cycle, clockCycle := 3, ir := 0x71#8 } :=
  ⟨⟨rfl, rfl, rfl⟩, ⟨rfl, rfl, rfl⟩, rfl, rfl, rfl⟩

/-- `step_instruction` into a hang from the boundary, from position 1 (the opcode at MAR) and from positions 2 and 3 (in IR);
and from position 4, where nothing is left to call. -/
theorem test_witness_StepStopsOnlyOnABlockedHandler_instruction :
    wHangIn.micro.driver = .instruction ∧
    (wHangIn.micro.toExecute = some (.ind .rb) ∧ blockedOn (.ind .rb) wHangIn.micro) ∧
    ({ wHangOut.micro with clockCycle := 1 } : State).toExecute = some (.outd .ra) ∧
    ({ wHangIn.micro with clockCycle := 2, ir := 0x71#8 } : State).toExecute = some (.ind .rb) ∧
    ({ wHangIn.micro with clockCycle := 10, ir := 0x71#8 } : State).toExecute = some (.ind .rb) ∧
    ({ wHangIn.micro with clockCycle := 4, ir := 0x71#8 } : State).toExecute = none :=
  ⟨rfl, ⟨rfl, rfl, rfl⟩, rfl, rfl, rfl, rfl⟩

theorem test_witness_ExecStopsExactlyWhenBlocked :
    blockedOn (.ind .rb) wHangIn ∧ blockedOn (.outd .ra) wHangOut ∧ ¬ blockedOn .clf wHangIn ∧
    ¬ blockedOn (.ind .rb) wInd ∧ ¬ blockedOn (.ind .rb) wAdd := by
  refine ⟨⟨rfl, rfl⟩, ⟨rfl, rfl⟩, id, fun h => ?_, fun h => ?_⟩
  · exact nomatch h.2
  · exact nomatch h.1

theorem test_witness_EnginesAgreeOnOneInstruction :
    wInd.clockCycle % 7 = 0 ∧ ¬ blockedOn wInd.fetchInstr wInd := ⟨rfl, fun h => nomatch h.2⟩

theorem test_witness_BothEnginesHangOnTheSameHandler :
    wHangIn.clockCycle % 7 = 0 ∧ blockedOn wHangIn.fetchInstr wHangIn ∧
    wHangOut.clockCycle % 7 = 0 ∧ blockedOn wHangOut.fetchInstr wHangOut := ⟨rfl, ⟨rfl, rfl⟩, rfl, rfl, rfl⟩

theorem test_witness_EnginesAgreeOnManyInstructions :
    wOutd.clockCycle % 7 = 0 ∧ (∃ f, runFast 2 wOutd = .next f) ∧ (∃ m, runCycles (7 * 2) wOutd = .next m) :=
  ⟨rfl, ⟨_, rfl⟩, ⟨_, rfl⟩⟩

/-- From a boundary and from position 6. -/
theorem test_witness_StepInstructionFinishesTheInstruction :
    (∃ t, stepInstruction wAdd = .next t) ∧ (∃ t, stepInstruction { wAdd with clockCycle := 6 } = .next t) :=
  ⟨⟨_, rfl⟩, ⟨_, rfl⟩⟩

theorem test_witness_ClockGrowsByOneOrSix :
    (∃ t, stepCycle wAdd = .next t) ∧ (∃ t, stepInstructionFast wAdd = .next t) := ⟨⟨_, rfl⟩, ⟨_, rfl⟩⟩

theorem test_witness_FetchAndIdlePositions :
    wAdd.clockCycle % 7 = 0 ∧ ({ wAdd with clockCycle := 8 } : State).clockCycle % 7 = 1 ∧
    ({ wAdd with clockCycle := 2 } : State).clockCycle % 7 = 2 ∧
    ({ wAdd with clockCycle := 13 } : State).clockCycle % 7 = 6 := ⟨rfl, rfl, rfl, rfl⟩

theorem test_witness_NetEffectOfTheFetch : ({ wAdd with clockCycle := 7 } : State).clockCycle % 7 = 0 := rfl

/-- An IR for each clause of the two statements of the schedule, at both ends of its range; and so for the schedule clause of
each instruction's own statement. -/
theorem test_witness_MicroSchedule :
    ∀ c : Fin 16, ({ wAdd with ir := BitVec.ofNat 8 (16 * c.val) } : State).ir.toNat / 16 = c.val ∧
      ({ wAdd with ir := BitVec.ofNat 8 (16 * c.val + 15) } : State).ir.toNat / 16 = c.val := by decide

/-- The same for the four IO rows. -/
theorem test_witness_MicroSchedule_io :
    ∀ m : Fin 4, ({ wAdd with ir := BitVec.ofNat 8 (112 + 4 * m.val) } : State).ir.toNat / 4 = 28 + m.val ∧
      ({ wAdd with ir := BitVec.ofNat 8 (115 + 4 * m.val) } : State).ir.toNat / 4 = 28 + m.val := by decide

/-- Seven and eight calls, the second at a `k` with `k % 7 = 1`. -/
theorem test_witness_FastCallsMoveThePositionBack :
    wAdd.clockCycle % 7 = 0 ∧ (∃ t, runFast 7 wAdd = .next t) ∧ (∃ t, runFast 8 wAdd = .next t) ∧ 8 % 7 = 1 :=
  ⟨rfl, ⟨_, rfl⟩, ⟨_, rfl⟩, rfl⟩

/-- A run that ends; halted boundaries of the fast engine and of the micro-cycle engine; and the states that are left by a
step: running, and halted in mid-instruction, after position 3. -/
theorem test_witness_RunEndsAtTheFirstHaltedBoundary :
    (∃ t, drive 2 wOutd = .next t ∧ t.ended = true) ∧
    (wOutd.halted.atBoundary = true ∧ wOutd.halted.running = false) ∧
    ({ wOutd.halted with driver := .cycle, clockCycle := 7 } : State).atBoundary = true ∧
    wOutd.ended = false ∧ ({ wOutd.halted with driver := .cycle, clockCycle := 4 } : State).ended = false :=
  ⟨⟨_, rfl, rfl⟩, ⟨rfl, rfl⟩, rfl, rfl, rfl⟩

theorem test_witness_AluLawsOfFlags :
    3 ≤ (codeOfAluOp .not).toNat ∧ 3 ≤ (codeOfAluOp .cmp).toNat ∧ (alu .add 0xFF#8 1#8 false).f.getLsbD 3 = true ∧
    (alu .or 0#8 0#8 false).f.getLsbD 0 = true ∧ (alu .cmp 5#8 3#8 false).f.getLsbD 2 = true ∧
    (alu .cmp 3#8 3#8 false).f.getLsbD 1 = true := by decide

/-- The second bytes of DATA, JMP and JXXX, fetched at 01. -/
theorem test_witness_immediates :
    (({ wAdd with ram := [(0, 0x2F#8), (1, 5#8)] } : State).readByte 0#8).toNat / 16 = 2 ∧
    (({ wAdd with ram := [(0, 0x40#8), (1, 5#8)] } : State).readByte 0#8).toNat / 16 = 4 ∧
    (({ wAdd with ram := [(0, 0x5F#8), (1, 5#8)] } : State).readByte 0#8).toNat / 16 = 5 := by decide

/-- A registered handler that returns, and the default slot. -/
theorem test_witness_IndReadsThePort :
    wInd.inHandlers.registered wInd.ioaddr = true ∧
    wInd.replyTo (.input wInd.ioaddr) = .returns 0x33#8 false ⟨none, some 0x11#8, some 0x22#8, none⟩ ∧
    wAdd.inHandlers.registered wAdd.ioaddr = false := ⟨rfl, rfl, rfl⟩

/-- A registered handler that halts, at port FF, and the default slot. -/
theorem test_witness_OutdWritesThePort :
    wOutd.outHandlers.registered wOutd.ioaddr = true ∧
    wOutd.replyTo (.output wOutd.ioaddr (wOutd.reg .ra)) = .returns 0#8 true ⟨none, none, none, none⟩ ∧
    wAdd.outHandlers.registered wAdd.ioaddr = false := ⟨rfl, rfl, rfl⟩

theorem test_witness_ProgramCounterAfterEachInstruction :
    (∃ t, stepInstructionFast wInd = .next t) ∧ (∃ t, exec (.ind .rb) wInd = .next t) := ⟨⟨_, rfl⟩, ⟨_, rfl⟩⟩

theorem test_witness_OnlyAluAndClfWriteFlags :
    (∃ t, exec (.outd .ra) wOutd = .next t) ∧ (Instr.outd .ra).isAlu = false ∧ Instr.outd .ra ≠ .clf :=
  ⟨⟨_, rfl⟩, rfl, by decide⟩

/-- ST at 20 storing to 80: the address 7F is another byte; and LD, which stores nothing. -/
theorem test_witness_OnlyStWritesRam :
    (∃ t, exec (.st .ra .rb) (wStore 0x80#8) = .next t) ∧
    (∀ a b : Reg, Instr.st .ra .rb = .st a b → 0x7F#8 ≠ indirectAddress (wStore 0x80#8) a) ∧
    (∃ t, exec (.ld .ra .rb) wAdd = .next t) :=
  ⟨⟨_, rfl⟩, fun a b h => by cases h; decide, ⟨_, rfl⟩⟩

/-- Position 3 with OUTD in IR, and exec of IND. -/
theorem test_witness_OnlyOutaWritesIoaddr :
    (∃ t, exec (.ind .rb) wInd = .next t) ∧ (∀ b : Reg, Instr.ind .rb ≠ .outa b) ∧
    (∃ t, stepCycle { wOutd with clockCycle := 3, ir := 0x7B#8 } = .next t) ∧
    ({ wOutd with clockCycle := 3, ir := 0x7B#8 } : State).ir.toNat / 4 ≠ 31 :=
  ⟨⟨_, rfl⟩, by intro b; simp, ⟨_, rfl⟩, by decide⟩

theorem test_witness_OnlyOperandBIsWritten :
    ∃ t, exec (.data .rb 5#8) wAdd = .next t ∧ t.reg .rb ≠ wAdd.reg .rb ∧ t.traffic = wAdd.traffic :=
  ⟨_, rfl, by decide, rfl⟩

theorem test_witness_HandlerTablesNeverChange : (∃ t, step wInd = .next t) ∧ wInd.inHandlers ≠ [] :=
  ⟨⟨_, rfl⟩, by decide⟩

/-- A step that clears `running`, and one that leaves it set. -/
theorem test_witness_RunningIsClearedOnlyByAPortHandler :
    (∃ t, step wOutd = .next t ∧ t.running ≠ wOutd.running) ∧ (∃ t, step wInd = .next t ∧ t.running = true) :=
  ⟨⟨_, rfl, by decide⟩, ⟨_, rfl, rfl⟩⟩

/-- The reset state, which calls no handler whatever its replies; and a state whose port call has its reply given, for the
fast call, for `step_instruction`, and for the micro-cycle at position 3. -/
theorem test_witness_StepDoesNotTestRunning :
    State.reset.sameReplyHalted (portCallOf State.reset.fetchInstr State.reset) ∧
    State.reset.sameReplyHalted (State.reset.toExecute.bind (fun i => portCallOf i State.reset)) ∧
    portCallOf wInd.fetchInstr wInd = some (.input 0#8) ∧ wInd.sameReplyHalted (some (.input 0#8)) ∧
    wInd.toExecute.bind (fun i => portCallOf i wInd) = some (.input 0#8) ∧
    portCallOf (decodeOp 0x71#8 0#8) { wInd with clockCycle := 3, ir := 0x71#8 } = some (.input 0#8) ∧
    ({ wInd with clockCycle := 3, ir := 0x71#8 } : State).sameReplyHalted (some (.input 0#8)) :=
  ⟨fun _ h => (nomatch h), fun _ h => (nomatch h), rfl, fun _ _ => rfl, rfl, rfl, fun _ _ => rfl⟩

/-- At a boundary; and, for the fast engine, after one fast call, where clock_cycle mod 7 is 6. -/
theorem test_witness_LatchesAreDeadAtABoundary :
    (wAdd.sameButLatches { wAdd with ir := 0xFF#8, mar := 1#8, acc := 2#8, tmp := 3#8 } ∧ wAdd.clockCycle % 7 = 0 ∧
      ∃ t, runCycles 7 wAdd = .next t) ∧
    (({ wAdd with clockCycle := 6 } : State).sameButLatches { wAdd with clockCycle := 6, ir := 0xFF#8 } ∧
      ∃ t, stepInstructionFast { wAdd with clockCycle := 6 } = .next t) :=
  ⟨⟨rfl, rfl, _, rfl⟩, rfl, _, rfl⟩

/-- ST at 20 storing to 21, to 22, and to 20, which is neither. -/
theorem test_witness_StoreIsSeenByTheNextFetch :
    (∀ a : Fin 3, (wStore (BitVec.ofNat 8 (0x20 + a.val))).fetchInstr = .st .ra .rb) ∧
    (∃ t, stepInstructionFast (wStore 0x21#8) = .next t) ∧ (∃ t, stepInstructionFast (wStore 0x22#8) = .next t) ∧
    (∃ t, stepInstructionFast (wStore 0x20#8) = .next t) ∧
    (wStore 0x21#8).reg .ra = (wStore 0x21#8).pc + 1#8 ∧ (wStore 0x22#8).reg .ra = (wStore 0x22#8).pc + 2#8 ∧
    (wStore 0x20#8).reg .ra ≠ (wStore 0x20#8).pc + 1#8 ∧ (wStore 0x20#8).reg .ra ≠ (wStore 0x20#8).pc + 2#8 :=
  ⟨by decide, ⟨_, rfl⟩, ⟨_, rfl⟩, ⟨_, rfl⟩, by decide, by decide, by decide, by decide⟩

end Sys2Proof.Machine
end

/-! The state right after reset (spec/10_state.md R29). -/

namespace Sys2Proof.Machine

@[simp] theorem PortTable.registered_nil (p : Byte) : PortTable.registered [] p = false := rfl

@[simp] theorem State.reset_reg (r : Reg) : State.reset.reg r = 0#8 := by cases r <;> rfl

/-- RAM lists no cell after reset, and a cell that is not listed reads 0. -/
@[simp] theorem State.reset_readByte (a : Byte) : State.reset.readByte a = 0#8 := Memory.read_nil a.toNat

@[simp] theorem State.reset_position : State.reset.position = 0 := Nat.zero_mod Config.positions

/-- The default handler everywhere (R119): both tables list no port after reset. -/
theorem State.reset_handlers_default (p : Byte) :
    State.reset.inHandlers.registered p = false ∧ State.reset.outHandlers.registered p = false :=
  ⟨PortTable.registered_nil p, PortTable.registered_nil p⟩

/-- Settles O7: the derived readings by their reset lemmas, every plain field by the definition of the reset state. -/
theorem resetValuesOfEveryField : Obligations.ResetValuesOfEveryField := by
  unfold Obligations.ResetValuesOfEveryField
  exact ⟨State.reset_reg, rfl, rfl, rfl, rfl, rfl, rfl, rfl, rfl, State.reset_position,
    State.reset_readByte, rfl, State.reset_handlers_default⟩

end Sys2Proof.Machine

/-! A write to RAM through the state (spec/20_memory.md R31). -/

namespace Sys2Proof.Machine

/-- "Changes nothing else" (R31), as one equation over the whole state. -/
theorem State.writeByte_frame (s : State) (a v : Byte) :
    s.writeByte a v = { s with ram := (s.writeByte a v).ram } := rfl

/-- An 8-bit address is always an address of the machine, so no write through the state leaves the canonical form. -/
theorem State.writeByte_ram_wf {s : State} (a v : Byte) (h : s.ram.wf) : (s.writeByte a v).ram.wf := by
  have ha : a.toNat < 256 := a.isLt
  exact Memory.wf_write v h ha

/-- Settles O12: the read law, the frame and the canonical form, each by its rule about `writeByte`. -/
theorem writeThenReadRam : Obligations.WriteThenReadRam := by
  unfold Obligations.WriteThenReadRam
  intro s a v b
  exact ⟨State.readByte_writeByte s a v b, State.writeByte_frame s a v, State.writeByte_ram_wf a v⟩

end Sys2Proof.Machine

/-! The three fields of the opcode byte, taken apart and joined (spec/30_encoding.md R46), and the mnemonic table that
answers them (R58, R59). -/

namespace Sys2Proof.Machine

@[simp] theorem fieldB_opcodeByte (c : BitVec 4) (a b : BitVec 2) : fieldB (opcodeByte c a b) = b :=
  BitVec.extractLsb'_append_eq_right

@[simp] theorem fieldA_opcodeByte (c : BitVec 4) (a b : BitVec 2) : fieldA (opcodeByte c a b) = a := by
  have aboveB : fieldA (opcodeByte c a b) = (c ++ a).extractLsb' 0 2 :=
    BitVec.extractLsb'_append_eq_of_le (by decide)
  exact aboveB.trans BitVec.extractLsb'_append_eq_right

@[simp] theorem fieldClass_opcodeByte (c : BitVec 4) (a b : BitVec 2) : fieldClass (opcodeByte c a b) = c := by
  have aboveB : fieldClass (opcodeByte c a b) = (c ++ a).extractLsb' 2 4 :=
    BitVec.extractLsb'_append_eq_of_le (by decide)
  exact aboveB.trans BitVec.extractLsb'_append_eq_left

/-- The fields are adjacent and cover the byte: class and A join to bits 7-2, and those with B to the whole (R46). -/
@[simp] theorem opcodeByte_fields (w : Byte) : opcodeByte (fieldClass w) (fieldA w) (fieldB w) = w := by
  have classAndA : fieldClass w ++ fieldA w = w.extractLsb' 2 6 :=
    BitVec.extractLsb'_append_extractLsb'_eq_extractLsb' rfl
  calc opcodeByte (fieldClass w) (fieldA w) (fieldB w)
      = w.extractLsb' 2 6 ++ fieldB w := by rw [opcodeByte, classAndA]
    _ = w := BitVec.extractLsb'_append_extractLsb' (w := 6) (len := 2)

@[simp] theorem mnemonicTable_opClass (w : Byte) : (mnemonicTable w).opClass = fieldClass w := rfl

@[simp] theorem mnemonicTable_a (w : Byte) : (mnemonicTable w).a = fieldA w := rfl

@[simp] theorem mnemonicTable_b (w : Byte) : (mnemonicTable w).b = fieldB w := rfl

/-- Settles O3: the table answers the byte's own fields; one way by a field's law each, the other by joining the fields. -/
theorem mnemonicTableRoundTrip : Obligations.MnemonicTableRoundTrip := by
  unfold Obligations.MnemonicTableRoundTrip
  simp only [mnemonicTable_opClass, mnemonicTable_a, mnemonicTable_b]
  constructor
  · intro c a b
    exact ⟨fieldClass_opcodeByte c a b, fieldA_opcodeByte c a b, fieldB_opcodeByte c a b⟩
  · exact opcodeByte_fields

end Sys2Proof.Machine

/-! One call of `step_cycle()` at a position whose action is the same for every instruction
(spec/41_microcycle_engine.md R91, R92, R93, R95). -/

namespace Sys2Proof.Machine

/-- Position 0 through the adder: ACC gets PC + 1, and the adder's flags go nowhere (R91). -/
theorem position0_eq (s : State) : position0 s = .next { s with mar := s.pc, acc := s.pc + 1#8 } := by
  rw [position0, increment_eq]

/-- A call is the action of the position that clock_cycle names, and one more cycle (R90, R96). -/
theorem stepCycle_at {s : State} {p : Nat} (hp : s.clockCycle % 7 = p) :
    stepCycle s = onNext (positionAction p s) (fun t => .next { t with clockCycle := t.clockCycle + 1 }) := by
  rw [stepCycle_eq, hp]

theorem stepCycle_at_zero {s : State} (hp : s.clockCycle % 7 = 0) :
    stepCycle s = .next { s with mar := s.pc, acc := s.pc + 1#8, clockCycle := s.clockCycle + 1 } := by
  rw [stepCycle_at hp, positionAction, position0_eq, onNext_next]

theorem stepCycle_at_one {s : State} (hp : s.clockCycle % 7 = 1) :
    stepCycle s = .next { s with ir := s.readByte s.mar, clockCycle := s.clockCycle + 1 } := by
  rw [stepCycle_at hp, positionAction, position1, onNext_next]

theorem stepCycle_at_two {s : State} (hp : s.clockCycle % 7 = 2) :
    stepCycle s = .next { s with pc := s.acc, clockCycle := s.clockCycle + 1 } := by
  rw [stepCycle_at hp, positionAction, position2, onNext_next]

theorem stepCycle_at_six {s : State} (hp : s.clockCycle % 7 = 6) :
    stepCycle s = .next { s with clockCycle := s.clockCycle + 1 } := by
  have idle : positionAction 6 s = .next s := rfl
  rw [stepCycle_at hp, idle, onNext_next]

/-- Settles O23: each of the four positions by its own equation. -/
theorem fetchAndIdlePositions : Obligations.FetchAndIdlePositions := by
  unfold Obligations.FetchAndIdlePositions
  intro s
  exact ⟨stepCycle_at_zero, stepCycle_at_one, stepCycle_at_two, stepCycle_at_six⟩

end Sys2Proof.Machine

/-! The clock of the micro-cycle engine: no position's action touches clock_cycle, so each call adds exactly 1
(spec/41_microcycle_engine.md R96), and the calls to the next boundary can be counted in advance (R97). -/

namespace Sys2Proof.Machine

/-! What a position does to the clock. -/

/-- The form in which a position's arm keeps the clock: its answer is known, and that state has the old clock. -/
theorem clockCycle_of_next {s t u : State} (h : (.next u : Host.Outcome State Fault Refusal) = .next t)
    (hu : u.clockCycle = s.clockCycle) : t.clockCycle = s.clockCycle := by
  cases h
  exact hu

theorem inputData_clockCycle {b : Reg} {s t : State} (h : inputData b s = .next t) : t.clockCycle = s.clockCycle := by
  obtain ⟨-, rfl⟩ | ⟨v, halt, w, -, -, rfl⟩ := inputData_next h
  · rfl
  · rw [State.setReg_clockCycle, State.afterHandler_clockCycle]

theorem outputData_clockCycle {b : Reg} {s t : State} (h : outputData b s = .next t) : t.clockCycle = s.clockCycle := by
  obtain ⟨-, rfl⟩ | ⟨v, halt, w, -, -, rfl⟩ := outputData_next h
  · rfl
  · rw [State.afterHandler_clockCycle]

theorem ioPosition3_clockCycle {sub : IoSubmode} {b : Reg} {s t : State} (h : ioPosition3 sub b s = .next t) :
    t.clockCycle = s.clockCycle := by
  cases sub with
  | ind => exact inputData_clockCycle h
  | ina => exact clockCycle_of_next h (State.setReg_clockCycle s b s.ioaddr)
  | outd => exact outputData_clockCycle h
  | outa => exact clockCycle_of_next h rfl

theorem position3_clockCycle {s t : State} (h : position3 s = .next t) : t.clockCycle = s.clockCycle := by
  unfold position3 at h
  cases hc : opClass s.ir <;> rw [hc] at h
  case io => exact ioPosition3_clockCycle h
  all_goals exact clockCycle_of_next h rfl

theorem position4_clockCycle {s t : State} (h : position4 s = .next t) : t.clockCycle = s.clockCycle := by
  unfold position4 at h
  cases hc : opClass s.ir <;> rw [hc] at h
  all_goals exact clockCycle_of_next h rfl

/-- JXXX and the ALU class choose between two states at position 5; neither choice has another clock. -/
theorem position5_clockCycle {s t : State} (h : position5 s = .next t) : t.clockCycle = s.clockCycle := by
  cases hc : opClass s.ir with
  | jxxx =>
    rw [position5_jxxx hc] at h
    exact clockCycle_of_next h (by split <;> rfl)
  | alu op =>
    rw [position5_alu hc] at h
    exact clockCycle_of_next h (by split <;> rfl)
  | _ =>
    rw [position5, hc] at h
    exact clockCycle_of_next h rfl

theorem positionAction_clockCycle {p : Nat} {s t : State} (h : positionAction p s = .next t) :
    t.clockCycle = s.clockCycle := by
  match p with
  | 0 | 1 | 2 => exact clockCycle_of_next h rfl
  | 3 => exact position3_clockCycle h
  | 4 => exact position4_clockCycle h
  | 5 => exact position5_clockCycle h
  | _ + 6 => exact clockCycle_of_next h rfl

/-! Calls and runs of calls. -/

theorem stepCycle_clockCycle {s t : State} (h : stepCycle s = .next t) : t.clockCycle = s.clockCycle + 1 := by
  rw [stepCycle_eq, onNext_eq_next] at h
  obtain ⟨m, action, ticked⟩ := h
  cases ticked
  exact congrArg (· + 1) (positionAction_clockCycle action)

theorem runCycles_clockCycle {n : Nat} {s t : State} (h : runCycles n s = .next t) :
    t.clockCycle = s.clockCycle + n := by
  induction n generalizing s with
  | zero => exact clockCycle_of_next h rfl
  | succ n ih =>
    obtain ⟨m, first, rest⟩ := onNext_eq_next.mp h
    have oneMore : m.clockCycle = s.clockCycle + 1 := stepCycle_clockCycle first
    have nMore : t.clockCycle = m.clockCycle + n := ih rest
    omega

/-- Two continuations that agree on what a computation answers go on alike from it. -/
theorem onNext_congr {o : Host.Outcome State Fault Refusal} {f g : State → Host.Outcome State Fault Refusal}
    (h : ∀ m, o = .next m → f m = g m) : onNext o f = onNext o g := by
  cases o with
  | next m => exact h m rfl
  | fault r => rfl
  | refused r => rfl

/-- With `k + 1` calls missing to the boundary the loop of `step_instruction()` makes just those, whatever larger number it
is allowed: the test after a call is met after the last of them and not before. -/
theorem cyclesToBoundary_eq_runCycles {n k : Nat} {s : State} (hk : s.clockCycle % 7 + (k + 1) = 7) (hn : k < n) :
    cyclesToBoundary n s = runCycles (k + 1) s := by
  induction k generalizing n s with
  | zero =>
    obtain ⟨n, rfl⟩ := Nat.exists_eq_add_one_of_ne_zero (Nat.ne_of_gt hn)
    refine onNext_congr fun m call => ?_
    have clock : m.clockCycle = s.clockCycle + 1 := stepCycle_clockCycle call
    have atBoundary : m.position = 0 := by rw [State.position_eq]; omega
    exact if_pos atBoundary
  | succ k ih =>
    obtain ⟨n, rfl⟩ := Nat.exists_eq_add_one_of_ne_zero (Nat.ne_zero_of_lt hn)
    refine onNext_congr fun m call => ?_
    have clock : m.clockCycle = s.clockCycle + 1 := stepCycle_clockCycle call
    have notYet : m.position ≠ 0 := by rw [State.position_eq]; omega
    exact (if_neg notYet).trans (ih (by omega) (by omega))

/-- `step_instruction()` in closed form: the calls from the present position to the boundary (R97). -/
theorem stepInstruction_eq_runCycles (s : State) : stepInstruction s = runCycles (7 - s.clockCycle % 7) s := by
  have below : s.clockCycle % 7 < 7 := Nat.mod_lt _ (by decide)
  obtain ⟨k, hk⟩ : ∃ k, 7 - s.clockCycle % 7 = k + 1 := ⟨6 - s.clockCycle % 7, by omega⟩
  rw [stepInstruction, hk]
  exact cyclesToBoundary_eq_runCycles (by omega) (show k < 7 by omega)

/-- Settles O21: the closed form, and the clock of a run of that many calls. -/
theorem stepInstructionFinishesTheInstruction : Obligations.StepInstructionFinishesTheInstruction := by
  unfold Obligations.StepInstructionFinishesTheInstruction
  intro s
  refine ⟨stepInstruction_eq_runCycles s, fun t h => ?_⟩
  rw [stepInstruction_eq_runCycles] at h
  have clock : t.clockCycle = s.clockCycle + (7 - s.clockCycle % 7) := runCycles_clockCycle h
  exact ⟨clock, by omega⟩

end Sys2Proof.Machine

/-! The image load (spec/70_reset_and_hazards.md R163): what a run of writes to rising addresses leaves in RAM. -/

namespace Sys2Proof.Machine

/-- A run of writes touches no address before its start. -/
theorem Memory.read_writeFrom_before {bytes : List Byte} {m : Memory} {n a : Nat} (h : a < n) :
    (Memory.writeFrom m n bytes).read a = m.read a := by
  induction bytes generalizing m n with
  | nil => rfl
  | cons b rest ih =>
    calc (Memory.writeFrom (m.write n b) (n + 1) rest).read a
      _ = (m.write n b).read a := ih (Nat.lt_succ_of_lt h)
      _ = m.read a := Memory.read_write_other m b (Nat.ne_of_lt h)

/-- From its start on a run of writes leaves its own bytes, and past its last byte what was there. -/
theorem Memory.read_writeFrom (bytes : List Byte) (m : Memory) (n i : Nat) :
    (Memory.writeFrom m n bytes).read (n + i) = bytes.getD i (m.read (n + i)) := by
  induction bytes generalizing m n i with
  | nil => rfl
  | cons b rest ih =>
    cases i with
    | zero =>
      calc (Memory.writeFrom (m.write n b) (n + 1) rest).read n
        _ = (m.write n b).read n := Memory.read_writeFrom_before (Nat.lt_succ_self n)
        _ = b := Memory.read_write_same m n b
    | succ i =>
      have past : n + 1 + i ≠ n := by omega
      rw [show n + (i + 1) = n + 1 + i by omega]
      calc (Memory.writeFrom (m.write n b) (n + 1) rest).read (n + 1 + i)
        _ = rest.getD i ((m.write n b).read (n + 1 + i)) := ih (m.write n b) (n + 1) i
        _ = rest.getD i (m.read (n + 1 + i)) := by rw [Memory.read_write_other m b past]

/-- The cut at 256 bytes is not seen by a read, whose address is below 256. -/
theorem State.readByte_loadImage (s : State) (image : List Byte) (a : Byte) :
    (s.loadImage image).readByte a = image.getD a.toNat 0#8 := by
  have inRange : a.toNat < Config.ramSize := a.isLt
  calc (s.loadImage image).readByte a
    _ = (Memory.writeFrom [] 0 (image.take Config.ramSize)).read (0 + a.toNat) := by rw [Nat.zero_add]; rfl
    _ = (image.take Config.ramSize).getD a.toNat 0#8 := Memory.read_writeFrom _ [] 0 a.toNat
    _ = image.getD a.toNat 0#8 := by
      rw [List.getD_eq_getElem?_getD, List.getElem?_take_of_lt inRange, ← List.getD_eq_getElem?_getD]

/-- The cut keeps every address written below 256, and the load starts from a RAM that lists no cell. -/
theorem State.loadImage_ram_wf (s : State) (image : List Byte) : (s.loadImage image).ram.wf := by
  have fits : 0 + (image.take Config.ramSize).length ≤ 256 := by
    rw [Nat.zero_add]
    exact List.length_take_le Config.ramSize image
  exact Memory.wf_writeFrom Memory.wf_nil fits

theorem State.loadImage_frame (s : State) (image : List Byte) :
    s.loadImage image = { s with ram := (s.loadImage image).ram } := rfl

/-- Settles O11: the bytes, the canonical form and the frame of the load, each by its rule about `loadImage`. -/
theorem imageLoadFillsRam : Obligations.ImageLoadFillsRam := by
  unfold Obligations.ImageLoadFillsRam
  intro s image
  exact ⟨State.readByte_loadImage s image, State.loadImage_ram_wf s image, State.loadImage_frame s image⟩

end Sys2Proof.Machine

/-! The opcode byte by its numbers (spec/30_encoding.md R46, R48): the class is the quotient by 16, operand A the quotient by 4
modulo 4, operand B the remainder modulo 4; and the decode function class by class (R54). -/

namespace Sys2Proof.Machine

theorem toNat_fieldClass (w : Byte) : (fieldClass w).toNat = w.toNat / 16 := by
  have below : w.toNat < 256 := w.isLt
  rw [fieldClass, BitVec.extractLsb'_toNat, Nat.shiftRight_eq_div_pow]
  omega

theorem toNat_fieldA (w : Byte) : (fieldA w).toNat = w.toNat / 4 % 4 := by
  rw [fieldA, BitVec.extractLsb'_toNat, Nat.shiftRight_eq_div_pow]

theorem toNat_fieldB (w : Byte) : (fieldB w).toNat = w.toNat % 4 := by
  rw [fieldB, BitVec.extractLsb'_toNat, Nat.shiftRight_zero]

theorem toNat_fieldMask (w : Byte) : (fieldMask w).toNat = w.toNat % 16 := by
  rw [fieldMask, BitVec.extractLsb'_toNat, Nat.shiftRight_zero]

theorem toNat_fieldAluOp (w : Byte) : (fieldAluOp w).toNat = w.toNat / 16 % 8 := by
  rw [fieldAluOp, BitVec.extractLsb'_toNat, Nat.shiftRight_eq_div_pow]

@[simp] theorem regOfIndex_indexOfReg (r : Reg) : regOfIndex (indexOfReg r) = r := by cases r <;> rfl

@[simp] theorem indexOfReg_regOfIndex (i : BitVec 2) : indexOfReg (regOfIndex i) = i := by revert i; decide

@[simp] theorem aluOpOfCode_codeOfAluOp (op : AluOp) : aluOpOfCode (codeOfAluOp op) = op := by cases op <;> rfl

@[simp] theorem codeOfAluOp_aluOpOfCode (c : BitVec 3) : codeOfAluOp (aluOpOfCode c) = c := by revert c; decide

/-- The sixteen classes by the number in bits 7-4 (R48). -/
def classOfNumber : Nat → OpClass
  | 0 => .ld
  | 1 => .st
  | 2 => .data
  | 3 => .jmpr
  | 4 => .jmp
  | 5 => .jxxx
  | 6 => .clf
  | 7 => .io
  | n + 8 => .alu (aluOpOfCode (BitVec.ofNat 3 n))

/-- The model reads the class from bit 7 and bits 6-4; that is the number in bits 7-4. -/
theorem opClass_eq (w : Byte) : opClass w = classOfNumber (w.toNat / 16) := by
  obtain ⟨ld, st, data, jmpr, jmp, jxxx, clf, io, alu⟩ := opClass_of_number w
  match h : w.toNat / 16 with
  | 0 => exact ld h
  | 1 => exact st h
  | 2 => exact data h
  | 3 => exact jmpr h
  | 4 => exact jmp h
  | 5 => exact jxxx h
  | 6 => exact clf h
  | 7 => exact io h
  | n + 8 =>
    have below : w.toNat < 256 := w.isLt
    have code : fieldAluOp w = BitVec.ofNat 3 n := by
      apply BitVec.eq_of_toNat_eq
      rw [toNat_fieldAluOp, h, BitVec.toNat_ofNat]
      omega
    rw [alu (by omega), code, classOfNumber]

/-- The four submodes of the IO class by bits 3-2 (R51). -/
theorem ioSub_eq (w : Byte) : ioSub w = ioSubmodeOf (fieldA w) := rfl

theorem isTwoByte_eq (w : Byte) :
    isTwoByte w = decide (w.toNat / 16 = 2 ∨ w.toNat / 16 = 4 ∨ w.toNat / 16 = 5) := by
  rw [Bool.eq_iff_iff, isTwoByte_iff, decide_eq_true_iff]

/-! The arms of the decode function. -/

theorem ld_decodes : classDecodesTo 0 false (fun w _ => .ld (regA w) (regB w)) := by
  intro w imm h
  simp [decodeOp, opClass_eq, isTwoByte_eq, h, classOfNumber]

theorem st_decodes : classDecodesTo 1 false (fun w _ => .st (regA w) (regB w)) := by
  intro w imm h
  simp [decodeOp, opClass_eq, isTwoByte_eq, h, classOfNumber]

theorem data_decodes : classDecodesTo 2 true (fun w imm => .data (regB w) imm) := by
  intro w imm h
  simp [decodeOp, opClass_eq, isTwoByte_eq, h, classOfNumber]

theorem jmpr_decodes : classDecodesTo 3 false (fun w _ => .jmpr (regB w)) := by
  intro w imm h
  simp [decodeOp, opClass_eq, isTwoByte_eq, h, classOfNumber]

theorem jmp_decodes : classDecodesTo 4 true (fun _ imm => .jmp imm) := by
  intro w imm h
  simp [decodeOp, opClass_eq, isTwoByte_eq, h, classOfNumber]

theorem jxxx_decodes : classDecodesTo 5 true (fun w imm => .jxxx (fieldMask w) imm) := by
  intro w imm h
  simp [decodeOp, opClass_eq, isTwoByte_eq, h, classOfNumber]

theorem clf_decodes : classDecodesTo 6 false (fun _ _ => .clf) := by
  intro w imm h
  simp [decodeOp, opClass_eq, isTwoByte_eq, h, classOfNumber]

/-- The four IO arms at once: the submode's own instruction on register B (R51, D3). -/
theorem io_decodes (sub : IoSubmode) : submodeDecodesTo (numberOfSubmode sub).toNat (ioInstr sub) := by
  intro w imm h
  have class7 : w.toNat / 16 = 7 := by have := (numberOfSubmode sub).isLt; omega
  have number : fieldA w = numberOfSubmode sub := by
    apply BitVec.eq_of_toNat_eq
    rw [toNat_fieldA]
    omega
  have submode : ioSub w = sub := by rw [ioSub_eq, number]; cases sub <;> rfl
  simp [decodeOp, opClass_eq, isTwoByte_eq, class7, classOfNumber, submode]

/-- The whole ALU half of the opcodes (R49). -/
theorem alu_decodes_of_code {w : Byte} (imm : Byte) (h : 8 ≤ w.toNat / 16) :
    decodeOp w imm = aluInstr (aluOpOfCode (fieldAluOp w)) (regA w) (regB w) ∧ isTwoByte w = false := by
  obtain ⟨-, -, -, -, -, -, -, -, alu⟩ := opClass_of_number w
  rw [decodeOp, alu h, isTwoByte_eq, decide_eq_false_iff_not]
  exact ⟨rfl, by omega⟩

/-- The eight ALU classes, each the class 8 + its code. -/
theorem alu_decodes (op : AluOp) :
    classDecodesTo (8 + (codeOfAluOp op).toNat) false (fun w _ => aluInstr op (regA w) (regB w)) := by
  intro w imm h
  have code : fieldAluOp w = codeOfAluOp op := by
    apply BitVec.eq_of_toNat_eq
    have := (codeOfAluOp op).isLt
    rw [toNat_fieldAluOp]
    omega
  obtain ⟨decoded, oneByte⟩ := alu_decodes_of_code imm (Nat.le_of_add_right_le h.ge)
  rw [code, aluOpOfCode_codeOfAluOp] at decoded
  exact ⟨decoded, oneByte⟩

/-- Settles O4: an arm each, and the four fields as numbers. -/
theorem decodeFunctionByClass : Obligations.DecodeFunctionByClass := by
  unfold Obligations.DecodeFunctionByClass
  refine ⟨ld_decodes, st_decodes, data_decodes, jmpr_decodes, jmp_decodes, jxxx_decodes, clf_decodes,
    io_decodes .ind, io_decodes .ina, io_decodes .outd, io_decodes .outa, fun w imm => alu_decodes_of_code imm, fun w => ?_⟩
  simp only [regA, regB, indexOfReg_regOfIndex]
  exact ⟨toNat_fieldA w, toNat_fieldB w, toNat_fieldMask w, toNat_fieldAluOp w⟩

/-- Settles O6: eleven closed words, evaluated. -/
theorem writtenWordsDecode : Obligations.WrittenWordsDecode := by
  unfold Obligations.WrittenWordsDecode
  decide

end Sys2Proof.Machine

/-! Decoding of what the encoder writes and encoding of what the decoder reads (spec/30_encoding.md R47, R53). -/

namespace Sys2Proof.Machine

/-- An instruction is one of the eleven that are no ALU class, or an ALU operation on two registers. -/
theorem Instr.casesByClass {motive : Instr → Prop}
    (ld : ∀ a b, motive (.ld a b)) (st : ∀ a b, motive (.st a b)) (data : ∀ b imm, motive (.data b imm))
    (jmpr : ∀ b, motive (.jmpr b)) (jmp : ∀ addr, motive (.jmp addr)) (jxxx : ∀ mask addr, motive (.jxxx mask addr))
    (clf : motive .clf) (ind : ∀ b, motive (.ind b)) (ina : ∀ b, motive (.ina b)) (outd : ∀ b, motive (.outd b))
    (outa : ∀ b, motive (.outa b)) (alu : ∀ op a b, motive (aluInstr op a b)) (i : Instr) : motive i := by
  cases i with
  | ld a b => exact ld a b
  | st a b => exact st a b
  | data b imm => exact data b imm
  | jmpr b => exact jmpr b
  | jmp addr => exact jmp addr
  | jxxx mask addr => exact jxxx mask addr
  | clf => exact clf
  | ind b => exact ind b
  | ina b => exact ina b
  | outd b => exact outd b
  | outa b => exact outa b
  | add a b => exact alu .add a b
  | shl a b => exact alu .shl a b
  | shr a b => exact alu .shr a b
  | not a b => exact alu .not a b
  | and a b => exact alu .and a b
  | or a b => exact alu .or a b
  | xor a b => exact alu .xor a b
  | cmp a b => exact alu .cmp a b

/-! Decoding by length. -/

/-- The second byte has no influence on an instruction of one byte (R53). -/
theorem decodeOp_of_oneByte {w : Byte} (imm imm' : Byte) (h : isTwoByte w = false) :
    decodeOp w imm = decodeOp w imm' := by
  rw [isTwoByte_eq, decide_eq_false_iff_not] at h
  have noImmediate : opClass w ≠ .data ∧ opClass w ≠ .jmp ∧ opClass w ≠ .jxxx := by
    rw [opClass_eq]
    match hn : w.toNat / 16 with
    | 2 | 4 | 5 => omega
    | 0 | 1 | 3 | 6 | 7 | n + 8 => simp [classOfNumber]
  unfold decodeOp
  cases hc : opClass w <;> simp_all

theorem decode_of_oneByte {w : Byte} (imm : Byte) (rest : List Byte) (h : isTwoByte w = false) :
    decode (w :: rest) = .ok (decodeOp w imm, rest) := by
  cases rest with
  | nil => simp [decode, h, decodeOp_of_oneByte 0#8 imm h]
  | cons next rest => simp [decode, h, decodeOp_of_oneByte next imm h]

theorem decode_of_twoByte {w : Byte} (imm : Byte) (rest : List Byte) (h : isTwoByte w = true) :
    decode (w :: imm :: rest) = .ok (decodeOp w imm, rest) := by
  simp [decode, h]

theorem decode_cons_cons (w imm : Byte) (rest : List Byte) :
    decode (w :: imm :: rest) = .ok (decodeOp w imm, if isTwoByte w then rest else imm :: rest) := by
  cases h : isTwoByte w with
  | false => exact decode_of_oneByte imm (imm :: rest) h
  | true => exact decode_of_twoByte imm rest h

/-! The bytes the encoder writes, by their numbers and operands. -/

@[simp] theorem toNat_opcodeByte_div (c : BitVec 4) (a b : BitVec 2) : (opcodeByte c a b).toNat / 16 = c.toNat := by
  rw [← toNat_fieldClass, fieldClass_opcodeByte]

@[simp] theorem regA_opcodeByte (c : BitVec 4) (a b : BitVec 2) : regA (opcodeByte c a b) = regOfIndex a := by
  rw [regA, fieldA_opcodeByte]

@[simp] theorem regB_opcodeByte (c : BitVec 4) (a b : BitVec 2) : regB (opcodeByte c a b) = regOfIndex b := by
  rw [regB, fieldB_opcodeByte]

/-- The six high bits of an IO opcode: class 7 and the submode (R51). -/
theorem toNat_opcodeIo_div (sub : IoSubmode) (b : Reg) :
    (opcodeIo sub b).toNat / 4 = 28 + (numberOfSubmode sub).toNat := by
  have class7 : (opcodeByte 7#4 (numberOfSubmode sub) (indexOfReg b)).toNat / 16 = 7 := toNat_opcodeByte_div ..
  have fieldAIs := toNat_fieldA (opcodeByte 7#4 (numberOfSubmode sub) (indexOfReg b))
  rw [fieldA_opcodeByte] at fieldAIs
  show (opcodeByte 7#4 (numberOfSubmode sub) (indexOfReg b)).toNat / 4 = _
  omega

@[simp] theorem regB_opcodeIo (sub : IoSubmode) (b : Reg) : regB (opcodeIo sub b) = b := by
  show regB (opcodeByte 7#4 (numberOfSubmode sub) (indexOfReg b)) = b
  rw [regB_opcodeByte, regOfIndex_indexOfReg]

/-- Format JM is the class and a mask where the other formats have A and B (R47). -/
theorem jumpByte_eq (mask : FlagBits) :
    (5#4 ++ mask : BitVec 8) = opcodeByte 5#4 (mask.extractLsb' 2 2) (mask.extractLsb' 0 2) := by
  have halves : mask.extractLsb' 2 2 ++ mask.extractLsb' 0 2 = mask :=
    BitVec.extractLsb'_append_extractLsb' (w := 2) (len := 2)
  rw [opcodeByte, BitVec.append_assoc, halves]
  rfl

@[simp] theorem fieldMask_jumpByte (mask : FlagBits) : fieldMask (5#4 ++ mask : BitVec 8) = mask :=
  BitVec.extractLsb'_append_eq_right

/-- The encoding of an ALU-class instruction: its class is 8 + the operation's code (R48). -/
theorem encode_aluInstr (op : AluOp) (a b : Reg) : encode (aluInstr op a b) = [opcodeRR (1#1 ++ codeOfAluOp op) a b] := by
  cases op <;> rfl

theorem encode_ioInstr (sub : IoSubmode) (b : Reg) : encode (ioInstr sub b) = [opcodeIo sub b] := by
  cases sub <;> rfl

/-! The round trip, for an opcode byte whose arm of the decode function is known. -/

/-- A one-byte arm read back from its opcode byte. -/
theorem decode_one {w : Byte} {i : Instr} (rest : List Byte) (h : decodeOp w 0#8 = i ∧ isTwoByte w = false) :
    decode (w :: rest) = .ok (i, rest) := by
  obtain ⟨decoded, oneByte⟩ := h
  rw [decode_of_oneByte 0#8 rest oneByte, decoded]

/-- A two-byte arm read back from its two bytes. -/
theorem decode_two {w imm : Byte} {i : Instr} (rest : List Byte) (h : decodeOp w imm = i ∧ isTwoByte w = true) :
    decode (w :: imm :: rest) = .ok (i, rest) := by
  obtain ⟨decoded, twoByte⟩ := h
  rw [decode_of_twoByte imm rest twoByte, decoded]

theorem decode_encode_io (sub : IoSubmode) (b : Reg) (rest : List Byte) :
    decode (encode (ioInstr sub b) ++ rest) = .ok (ioInstr sub b, rest) := by
  have arm := io_decodes sub (opcodeIo sub b) 0#8 (toNat_opcodeIo_div sub b)
  rw [regB_opcodeIo] at arm
  rw [encode_ioInstr]
  exact decode_one rest arm

theorem decode_encode_alu (op : AluOp) (a b : Reg) (rest : List Byte) :
    decode (encode (aluInstr op a b) ++ rest) = .ok (aluInstr op a b, rest) := by
  have number : (opcodeRR (1#1 ++ codeOfAluOp op) a b).toNat / 16 = 8 + (codeOfAluOp op).toNat := by
    rw [opcodeRR, toNat_opcodeByte_div]
    cases op <;> rfl
  have arm := alu_decodes op (opcodeRR (1#1 ++ codeOfAluOp op) a b) 0#8 number
  rw [encode_aluInstr]
  simp only [opcodeRR, regA_opcodeByte, regB_opcodeByte, regOfIndex_indexOfReg] at arm ⊢
  exact decode_one rest arm

theorem decode_encode (i : Instr) (rest : List Byte) : decode (encode i ++ rest) = .ok (i, rest) := by
  induction i using Instr.casesByClass with
  | ld a b =>
    have arm := ld_decodes (opcodeRR 0#4 a b) 0#8 (toNat_opcodeByte_div ..)
    simp only [opcodeRR, regA_opcodeByte, regB_opcodeByte, regOfIndex_indexOfReg] at arm
    exact decode_one rest arm
  | st a b =>
    have arm := st_decodes (opcodeRR 1#4 a b) 0#8 (toNat_opcodeByte_div ..)
    simp only [opcodeRR, regA_opcodeByte, regB_opcodeByte, regOfIndex_indexOfReg] at arm
    exact decode_one rest arm
  | data b imm =>
    have arm := data_decodes (opcodeR 2#4 b) imm (toNat_opcodeByte_div ..)
    simp only [opcodeR, regB_opcodeByte, regOfIndex_indexOfReg] at arm
    exact decode_two rest arm
  | jmpr b =>
    have arm := jmpr_decodes (opcodeR 3#4 b) 0#8 (toNat_opcodeByte_div ..)
    simp only [opcodeR, regB_opcodeByte, regOfIndex_indexOfReg] at arm
    exact decode_one rest arm
  | jmp addr => exact decode_two rest (jmp_decodes (opcodeByte 4#4 0#2 0#2) addr (toNat_opcodeByte_div ..))
  | jxxx mask addr =>
    have number : (5#4 ++ mask : BitVec 8).toNat / 16 = 5 := by rw [jumpByte_eq, toNat_opcodeByte_div]; rfl
    have arm := jxxx_decodes (5#4 ++ mask) addr number
    simp only [fieldMask_jumpByte] at arm
    exact decode_two rest arm
  | clf => exact decode_one rest (clf_decodes (opcodeByte 6#4 0#2 0#2) 0#8 (toNat_opcodeByte_div ..))
  | ind b => exact decode_encode_io .ind b rest
  | ina b => exact decode_encode_io .ina b rest
  | outd b => exact decode_encode_io .outd b rest
  | outa b => exact decode_encode_io .outa b rest
  | alu op a b => exact decode_encode_alu op a b rest

/-- Settles O1: the round trip, which needs no well-formedness, every instruction being encodable. -/
theorem decodeOfEncodeIsTheInstruction : Obligations.DecodeOfEncodeIsTheInstruction := by
  unfold Obligations.DecodeOfEncodeIsTheInstruction
  intro i rest _
  exact decode_encode i rest

/-! The canonical opcode byte: its fields are those of the byte with the unused ones cleared. -/

/-- The opcode byte with the bits its class ignores cleared (R53, D10). -/
def clearUnused (w : Byte) : Byte := w &&& ~~~unusedBits w

/-- The mask of ignored bits by the class number. -/
theorem unusedBits_eq (w : Byte) :
    unusedBits w = if w.toNat / 16 = 2 ∨ w.toNat / 16 = 3 then 0x0C#8
      else if w.toNat / 16 = 4 ∨ w.toNat / 16 = 6 then 0x0F#8 else 0x00#8 := by
  have number : (w.extractLsb' 4 4).toNat = w.toNat / 16 := toNat_fieldClass w
  rw [unusedBits, number]
  match w.toNat / 16 with
  | 0 | 1 | 2 | 3 | 4 | 5 | 6 | n + 7 => simp

theorem clearUnused_of_allUsed {w : Byte}
    (h : ¬(w.toNat / 16 = 2 ∨ w.toNat / 16 = 3) ∧ ¬(w.toNat / 16 = 4 ∨ w.toNat / 16 = 6)) : clearUnused w = w := by
  obtain ⟨notA, notAB⟩ := h
  rw [clearUnused, unusedBits_eq, if_neg notA, if_neg notAB]
  exact BitVec.and_allOnes

/-- A byte masked is joined from its masked fields. -/
theorem and_eq_opcodeByte (w m : Byte) :
    w &&& m = opcodeByte (fieldClass w &&& fieldClass m) (fieldA w &&& fieldA m) (fieldB w &&& fieldB m) := by
  have masked : ∀ start len, (w &&& m).extractLsb' start len = w.extractLsb' start len &&& m.extractLsb' start len :=
    fun _ _ => BitVec.extractLsb'_and
  rw [← opcodeByte_fields (w &&& m)]
  simp only [fieldClass, fieldA, fieldB, masked]

/-- DATA and JMPR ignore operand A. -/
theorem clearUnused_of_fieldA {w : Byte} (h : w.toNat / 16 = 2 ∨ w.toNat / 16 = 3) :
    clearUnused w = opcodeByte (fieldClass w) 0#2 (fieldB w) := by
  rw [clearUnused, unusedBits_eq, if_pos h, and_eq_opcodeByte]
  congr 1
  · exact BitVec.and_allOnes
  · exact BitVec.and_zero
  · exact BitVec.and_allOnes

/-- JMP and CLF ignore both operands. -/
theorem clearUnused_of_fieldsAB {w : Byte} (h : w.toNat / 16 = 4 ∨ w.toNat / 16 = 6) :
    clearUnused w = opcodeByte (fieldClass w) 0#2 0#2 := by
  have notA : ¬(w.toNat / 16 = 2 ∨ w.toNat / 16 = 3) := by omega
  rw [clearUnused, unusedBits_eq, if_neg notA, if_pos h, and_eq_opcodeByte]
  congr 1
  · exact BitVec.and_allOnes
  · exact BitVec.and_zero
  · exact BitVec.and_zero

/-! Encoding what a byte decodes to. -/

theorem fieldClass_eq {w : Byte} {c : BitVec 4} (h : w.toNat / 16 = c.toNat) : fieldClass w = c := by
  apply BitVec.eq_of_toNat_eq
  rw [toNat_fieldClass, h]

theorem opcodeRR_fields {w : Byte} {c : BitVec 4} (h : fieldClass w = c) : opcodeRR c (regA w) (regB w) = w := by
  rw [opcodeRR, regA, regB, indexOfReg_regOfIndex, indexOfReg_regOfIndex, ← h, opcodeByte_fields]

theorem opcodeR_fields {w : Byte} {c : BitVec 4} (h : fieldClass w = c) :
    opcodeR c (regB w) = opcodeByte (fieldClass w) 0#2 (fieldB w) := by
  rw [opcodeR, regB, indexOfReg_regOfIndex, h]

theorem opcodeIo_fields {w : Byte} (h : fieldClass w = 7#4) : opcodeIo (ioSub w) (ioReg w) = w := by
  have submode : numberOfSubmode (ioSub w) = fieldA w := by
    rw [ioSub_eq]
    generalize fieldA w = n
    revert n
    decide
  show opcodeByte 7#4 (numberOfSubmode (ioSub w)) (indexOfReg (regB w)) = w
  rw [submode, regB, indexOfReg_regOfIndex, ← h, opcodeByte_fields]

theorem jumpByte_fields {w : Byte} (h : fieldClass w = 5#4) : (5#4 ++ fieldMask w : BitVec 8) = w := by
  rw [← h]
  exact BitVec.extractLsb'_append_extractLsb' (w := 4) (len := 4)

/-- In the ALU half the class is bit 7 set and the operation's code below it (R48, R49). -/
theorem aluClass_fields {w : Byte} (h : 8 ≤ w.toNat / 16) : (1#1 ++ fieldAluOp w : BitVec 4) = fieldClass w := by
  have below : w.toNat < 256 := w.isLt
  have codeBelow : (fieldAluOp w).toNat < 8 := (fieldAluOp w).isLt
  have code := toNat_fieldAluOp w
  apply BitVec.eq_of_toNat_eq
  rw [BitVec.toNat_append, ← Nat.shiftLeft_add_eq_or_of_lt codeBelow, toNat_fieldClass]
  simp
  omega

/-- The encoder undoes the decode function up to the bits it ignores (R53). -/
theorem encode_decodeOp (w imm : Byte) :
    encode (decodeOp w imm) = if isTwoByte w then [clearUnused w, imm] else [clearUnused w] := by
  match h : w.toNat / 16 with
  | 0 =>
    obtain ⟨decoded, oneByte⟩ := ld_decodes w imm h
    rw [decoded, oneByte, clearUnused_of_allUsed (by omega), encode, opcodeRR_fields (fieldClass_eq h)]
    rfl
  | 1 =>
    obtain ⟨decoded, oneByte⟩ := st_decodes w imm h
    rw [decoded, oneByte, clearUnused_of_allUsed (by omega), encode, opcodeRR_fields (fieldClass_eq h)]
    rfl
  | 2 =>
    obtain ⟨decoded, twoByte⟩ := data_decodes w imm h
    rw [decoded, twoByte, clearUnused_of_fieldA (by omega), encode, opcodeR_fields (fieldClass_eq h)]
    rfl
  | 3 =>
    obtain ⟨decoded, oneByte⟩ := jmpr_decodes w imm h
    rw [decoded, oneByte, clearUnused_of_fieldA (by omega), encode, opcodeR_fields (fieldClass_eq h)]
    rfl
  | 4 =>
    obtain ⟨decoded, twoByte⟩ := jmp_decodes w imm h
    rw [decoded, twoByte, clearUnused_of_fieldsAB (by omega), fieldClass_eq (c := 4#4) h]
    rfl
  | 5 =>
    obtain ⟨decoded, twoByte⟩ := jxxx_decodes w imm h
    rw [decoded, twoByte, clearUnused_of_allUsed (by omega), encode, jumpByte_fields (fieldClass_eq h)]
    rfl
  | 6 =>
    obtain ⟨decoded, oneByte⟩ := clf_decodes w imm h
    rw [decoded, oneByte, clearUnused_of_fieldsAB (by omega), fieldClass_eq (c := 6#4) h]
    rfl
  | 7 =>
    have decoded : decodeOp w imm = ioInstr (ioSub w) (ioReg w) := by simp [decodeOp, opClass_eq, h, classOfNumber]
    have oneByte : isTwoByte w = false := by simp [isTwoByte_eq, h]
    rw [decoded, oneByte, clearUnused_of_allUsed (by omega), encode_ioInstr, opcodeIo_fields (fieldClass_eq h)]
    rfl
  | n + 8 =>
    have aluHalf : 8 ≤ w.toNat / 16 := by omega
    obtain ⟨decoded, oneByte⟩ := alu_decodes_of_code imm aluHalf
    rw [decoded, oneByte, clearUnused_of_allUsed (by omega), encode_aluInstr, codeOfAluOp_aluOpOfCode,
      opcodeRR_fields (aluClass_fields aluHalf).symm]
    rfl

/-- Settles O2: the encoder undoes the decode function, a class at a time. -/
theorem encodeOfDecodeClearsOnlyUnusedBits : Obligations.EncodeOfDecodeClearsOnlyUnusedBits := by
  unfold Obligations.EncodeOfDecodeClearsOnlyUnusedBits
  exact encode_decodeOp

/-- The ignored bits change no decoding: the byte and its canonical form have one encoding, and the decoder reads the
instruction back from it. -/
theorem decodeOp_clearUnused (w imm : Byte) : decodeOp (clearUnused w) imm = decodeOp w imm := by
  have bytes : encode (decodeOp w imm) ++ (if isTwoByte w then [] else [imm]) = [clearUnused w, imm] := by
    rw [encode_decodeOp]
    cases isTwoByte w <;> rfl
  have readBack := decode_encode (decodeOp w imm) (if isTwoByte w then [] else [imm])
  rw [bytes, decode_cons_cons] at readBack
  injection readBack with same
  injection same

/-- Settles O5: the length law, the second byte of a one-byte instruction, and the ignored bits. -/
theorem everyByteIsAnInstruction : Obligations.EveryByteIsAnInstruction := by
  unfold Obligations.EveryByteIsAnInstruction
  exact ⟨decode_cons_cons, fun w imm imm' => decodeOp_of_oneByte imm imm', decodeOp_clearUnused⟩

end Sys2Proof.Machine

/-! What each instruction does, said once: the whole next state, or the port transfer it makes. -/

namespace Sys2Proof.Machine

@[simp] theorem afterOpcode_eq (s : State) : afterOpcode s = s.pc + 1#8 := increment_eq s.pc

@[simp] theorem afterImmediate_eq (s : State) : afterImmediate s = s.pc + 2#8 := by
  rw [afterImmediate, increment_eq, increment_eq, BitVec.add_assoc]
  rfl

theorem State.advance_eq (s : State) : s.advance = { s with pc := s.pc + 1#8 } := by
  rw [State.advance, afterOpcode_eq]

theorem State.loadOpcode_eq (s : State) :
    s.loadOpcode = { s with ir := s.readByte s.pc, mar := s.pc, acc := s.pc + 1#8 } := by
  rw [State.loadOpcode, increment_eq]

theorem exec_ld (a b : Reg) (s : State) :
    exec (.ld a b) s = .next { s with
      regs := writeRegister s.regs b (s.readByte (s.reg a)), mar := s.reg a, pc := s.pc + 1#8 } := by
  rw [exec, execLd, State.advance_eq]
  rfl

theorem exec_st (a b : Reg) (s : State) :
    exec (.st a b) s = .next { s with
      ram := s.ram.write (s.reg a).toNat (s.reg b), mar := s.reg a, pc := s.pc + 1#8 } := by
  rw [exec, execSt, State.advance_eq]
  rfl

theorem exec_data (b : Reg) (imm : Byte) (s : State) :
    exec (.data b imm) s = .next { s with
      regs := writeRegister s.regs b imm, mar := s.pc + 1#8, acc := s.pc + 2#8, pc := s.pc + 2#8 } := by
  rw [exec, execData, afterOpcode_eq, afterImmediate_eq]
  rfl

theorem exec_jmpr (b : Reg) (s : State) : exec (.jmpr b) s = .next { s with pc := s.reg b } := rfl

theorem exec_jmp (addr : Byte) (s : State) : exec (.jmp addr) s = .next { s with mar := s.pc + 1#8, pc := addr } := by
  rw [exec, execJmp, afterOpcode_eq]

theorem exec_jxxx (mask : FlagBits) (addr : Byte) (s : State) :
    exec (.jxxx mask addr) s = .next { s with
      mar := s.pc + 1#8, acc := s.pc + 2#8, pc := if jumpTaken s.flags mask then addr else s.pc + 2#8 } := by
  rw [exec, execJxxx, afterOpcode_eq, afterImmediate_eq]

theorem exec_clf (s : State) : exec .clf s = .next { s with flags := 0#4, pc := s.pc + 1#8 } := by
  rw [exec, execClf, State.advance_eq, clearedFlags_eq]

theorem exec_ind (b : Reg) (s : State) : exec (.ind b) s = onNext (inputData b s) (fun t => .next t.advance) := rfl

theorem exec_ina (b : Reg) (s : State) :
    exec (.ina b) s = .next { s with regs := writeRegister s.regs b s.ioaddr, pc := s.pc + 1#8 } := by
  rw [exec, execIna, State.advance_eq]
  rfl

theorem exec_outd (b : Reg) (s : State) : exec (.outd b) s = onNext (outputData b s) (fun t => .next t.advance) := rfl

theorem exec_outa (b : Reg) (s : State) :
    exec (.outa b) s = .next { s with ioaddr := s.reg b, pc := s.pc + 1#8 } := by
  rw [exec, execOuta, State.advance_eq]

/-- What a returning handler can reach through IND: registers, `running` and the outside (R118). -/
theorem inputData_frame {b : Reg} {s t : State} (h : inputData b s = .next t) :
    t = { s with regs := t.regs, running := t.running, replies := t.replies, traffic := t.traffic } := by
  obtain ⟨-, rfl⟩ | ⟨v, halt, w, -, -, rfl⟩ := inputData_next h <;> rfl

/-- What a returning handler can reach through OUTD (R118). -/
theorem outputData_frame {b : Reg} {s t : State} (h : outputData b s = .next t) :
    t = { s with regs := t.regs, running := t.running, replies := t.replies, traffic := t.traffic } := by
  obtain ⟨-, rfl⟩ | ⟨v, halt, w, -, -, rfl⟩ := outputData_next h <;> rfl

theorem exec_ind_frame {b : Reg} {s t : State} (h : exec (.ind b) s = .next t) :
    t = { s with
      regs := t.regs, pc := s.pc + 1#8, running := t.running, replies := t.replies, traffic := t.traffic } := by
  obtain ⟨m, transfer, advanced⟩ := onNext_eq_next.mp h
  cases advanced
  rw [State.advance_eq, inputData_frame transfer]

theorem exec_outd_frame {b : Reg} {s t : State} (h : exec (.outd b) s = .next t) :
    t = { s with
      regs := t.regs, pc := s.pc + 1#8, running := t.running, replies := t.replies, traffic := t.traffic } := by
  obtain ⟨m, transfer, advanced⟩ := onNext_eq_next.mp h
  cases advanced
  rw [State.advance_eq, outputData_frame transfer]

/-- The eight ALU-class instructions have one meaning, in their operation (R74). -/
theorem exec_aluInstr (op : AluOp) (a b : Reg) (s : State) : exec (aluInstr op a b) s = aluClass op a b s := by
  cases op <;> rfl

end Sys2Proof.Machine

/-! What stops the machine: only a handler that never returns (spec/60_exceptions.md R140, R155). -/

namespace Sys2Proof.Machine

/-- The outcome is the hang if `p` holds and a next state if not; in no case a refusal. -/
def HangsIff (p : Prop) (o : Host.Outcome State Fault Refusal) : Prop :=
  p ∧ o = .fault .handlerNeverReturns ∨ ¬p ∧ ∃ t, o = .next t

theorem HangsIff.next (t : State) : HangsIff False (.next t) := .inr ⟨id, t, rfl⟩

theorem HangsIff.congr {p q : Prop} {o : Host.Outcome State Fault Refusal} (h : HangsIff p o) (hpq : p ↔ q) :
    HangsIff q o := propext hpq ▸ h

theorem HangsIff.fault_iff {p : Prop} {o : Host.Outcome State Fault Refusal} (h : HangsIff p o) (r : Fault) :
    o = .fault r ↔ p := by
  obtain ⟨hp, rfl⟩ | ⟨hp, t, rfl⟩ := h
  · cases r
    exact ⟨fun _ => hp, fun _ => rfl⟩
  · exact ⟨nofun, fun p => absurd p hp⟩

theorem HangsIff.ne_refused {p : Prop} {o : Host.Outcome State Fault Refusal} (h : HangsIff p o) (r : Refusal) :
    o ≠ .refused r := by
  obtain ⟨-, rfl⟩ | ⟨-, t, rfl⟩ := h <;> exact nofun

theorem HangsIff.exists_next {p : Prop} {o : Host.Outcome State Fault Refusal} (h : HangsIff p o) (hp : ¬p) :
    ∃ t, o = .next t := by
  obtain ⟨hangs, -⟩ | ⟨-, completes⟩ := h
  · exact absurd hangs hp
  · exact completes

/-- What follows an operation adds no hang, if it never hangs itself. -/
theorem HangsIff.onNext {p : Prop} {o : Host.Outcome State Fault Refusal}
    {f : State → Host.Outcome State Fault Refusal} (h : HangsIff p o) (hf : ∀ t, HangsIff False (f t)) :
    HangsIff p (onNext o f) := by
  obtain ⟨hp, rfl⟩ | ⟨hp, t, rfl⟩ := h
  · exact .inl ⟨hp, rfl⟩
  · exact .inr ⟨hp, (hf t).exists_next id⟩

theorem not_blockedOn_aluInstr (op : AluOp) (a b : Reg) (s : State) : ¬blockedOn (aluInstr op a b) s := by
  cases op <;> exact id

theorem inputData_hangsIff (b : Reg) (s : State) : HangsIff (blockedOn (.ind b) s) (inputData b s) := by
  cases hr : s.inHandlers.registered s.ioaddr with
  | false => exact .inr ⟨by simp [blockedOn, hr], s, inputData_default hr⟩
  | true =>
    cases hq : s.replyTo (.input s.ioaddr) with
    | returns v halt w => exact .inr ⟨by simp [blockedOn, hq], _, inputData_returns hr hq⟩
    | neverReturns => exact .inl ⟨⟨hr, hq⟩, inputData_hangs hr hq⟩

theorem outputData_hangsIff (b : Reg) (s : State) : HangsIff (blockedOn (.outd b) s) (outputData b s) := by
  cases hr : s.outHandlers.registered s.ioaddr with
  | false => exact .inr ⟨by simp [blockedOn, hr], s, outputData_default hr⟩
  | true =>
    cases hq : s.replyTo (.output s.ioaddr (s.reg b)) with
    | returns v halt w => exact .inr ⟨by simp [blockedOn, hq], _, outputData_returns hr hq⟩
    | neverReturns => exact .inl ⟨⟨hr, hq⟩, outputData_hangs hr hq⟩

theorem exec_hangsIff (i : Instr) (s : State) : HangsIff (blockedOn i s) (exec i s) := by
  induction i using Instr.casesByClass with
  | ind b => exact (inputData_hangsIff b s).onNext fun t => .next t.advance
  | outd b => exact (outputData_hangsIff b s).onNext fun t => .next t.advance
  | alu op a b => exact .inr ⟨not_blockedOn_aluInstr op a b s, _, exec_aluInstr op a b s⟩
  | _ => exact .next _

/-- Settles O17: the three clauses are the three readings of `exec_hangsIff`. -/
theorem execStopsExactlyWhenBlocked : Obligations.ExecStopsExactlyWhenBlocked := by
  unfold Obligations.ExecStopsExactlyWhenBlocked
  intro i s
  have stops := exec_hangsIff i s
  exact ⟨stops.ne_refused, (stops.fault_iff _).mpr, stops.exists_next⟩

end Sys2Proof.Machine

/-! Updates that an operation does not see: it does the same from the updated state, and the update is still in place
after it. -/

namespace Sys2Proof.Machine

/-- The update touches nothing that a port transfer reads or sets, but perhaps what a handler's reply depends on. -/
structure PortBlind (g : State → State) : Prop where
  ioaddr : ∀ s, (g s).ioaddr = s.ioaddr
  inHandlers : ∀ s, (g s).inHandlers = s.inHandlers
  outHandlers : ∀ s, (g s).outHandlers = s.outHandlers
  reg : ∀ s r, (g s).reg r = s.reg r
  setReg : ∀ s r v, g (s.setReg r v) = (g s).setReg r v
  afterHandler : ∀ s halt w e, g (s.afterHandler halt w e) = (g s).afterHandler halt w e

/-- The reply to the call an instruction makes, if it makes one, is the same after the update. -/
def SameReply (g : State → State) (call : Option PortCall) (s : State) : Prop :=
  ∀ c, call = some c → (g s).replyTo c = s.replyTo c

theorem inputData_update {g : State → State} {b : Reg} {s : State} (hg : PortBlind g)
    (hs : SameReply g (portCallOf (.ind b) s) s) :
    inputData b (g s) = onNext (inputData b s) (fun t => .next (g t)) := by
  have sameSlot : (g s).inHandlers.registered (g s).ioaddr = s.inHandlers.registered s.ioaddr := by
    rw [hg.inHandlers, hg.ioaddr]
  cases hr : s.inHandlers.registered s.ioaddr with
  | false =>
    rw [inputData_default hr, inputData_default (sameSlot.trans hr)]
    rfl
  | true =>
    have reply : (g s).replyTo (.input (g s).ioaddr) = s.replyTo (.input s.ioaddr) := by
      rw [hg.ioaddr]
      exact hs _ (if_pos hr)
    cases hq : s.replyTo (.input s.ioaddr) with
    | returns v halt w =>
      rw [inputData_returns hr hq, inputData_returns (sameSlot.trans hr) (reply.trans hq), onNext_next, hg.setReg,
        hg.afterHandler, hg.ioaddr]
    | neverReturns =>
      rw [inputData_hangs hr hq, inputData_hangs (sameSlot.trans hr) (reply.trans hq)]
      rfl

theorem outputData_update {g : State → State} {b : Reg} {s : State} (hg : PortBlind g)
    (hs : SameReply g (portCallOf (.outd b) s) s) :
    outputData b (g s) = onNext (outputData b s) (fun t => .next (g t)) := by
  have sameSlot : (g s).outHandlers.registered (g s).ioaddr = s.outHandlers.registered s.ioaddr := by
    rw [hg.outHandlers, hg.ioaddr]
  cases hr : s.outHandlers.registered s.ioaddr with
  | false =>
    rw [outputData_default hr, outputData_default (sameSlot.trans hr)]
    rfl
  | true =>
    have reply : (g s).replyTo (.output (g s).ioaddr ((g s).reg b)) = s.replyTo (.output s.ioaddr (s.reg b)) := by
      rw [hg.ioaddr, hg.reg]
      exact hs _ (if_pos hr)
    cases hq : s.replyTo (.output s.ioaddr (s.reg b)) with
    | returns v halt w =>
      rw [outputData_returns hr hq, outputData_returns (sameSlot.trans hr) (reply.trans hq), onNext_next,
        hg.afterHandler, hg.ioaddr, hg.reg]
    | neverReturns =>
      rw [outputData_hangs hr hq, outputData_hangs (sameSlot.trans hr) (reply.trans hq)]
      rfl

/-! The two fields that no instruction's meaning and no position's action reads: clock_cycle and `running`. -/

/-- The state with clock_cycle and `running` rewritten: a call's tick, another clock, or `running` cleared. -/
def State.bookkeep (c : Nat → Nat) (r : Bool → Bool) (s : State) : State :=
  { s with clockCycle := c s.clockCycle, running := r s.running }

/-- The rewriting of `running` and a handler that may clear it can change places. -/
def KeepsClearing (r : Bool → Bool) : Prop := ∀ running halt, r (running && !halt) = (r running && !halt)

theorem keepsClearing_id : KeepsClearing id := fun _ _ => rfl

theorem keepsClearing_false : KeepsClearing (fun _ => false) := fun _ _ => rfl

theorem portBlind_bookkeep {c : Nat → Nat} {r : Bool → Bool} (hr : KeepsClearing r) :
    PortBlind (State.bookkeep c r) where
  ioaddr _ := rfl
  inHandlers _ := rfl
  outHandlers _ := rfl
  reg _ _ := rfl
  setReg _ _ _ := rfl
  afterHandler s halt w e := by simp only [State.bookkeep, State.afterHandler, hr s.running halt]

/-- A clock alone changes no reply (R118, D15). -/
theorem sameReply_clock (c : Nat → Nat) (call : Option PortCall) (s : State) :
    SameReply (State.bookkeep c id) call s := fun _ _ => rfl

theorem exec_bookkeep {c : Nat → Nat} {r : Bool → Bool} {i : Instr} {s : State} (hr : KeepsClearing r)
    (hs : SameReply (State.bookkeep c r) (portCallOf i s) s) :
    exec i (s.bookkeep c r) = onNext (exec i s) (fun t => .next (t.bookkeep c r)) := by
  induction i using Instr.casesByClass with
  | ind b => rw [exec_ind, inputData_update (portBlind_bookkeep hr) hs, exec_ind, onNext_assoc, onNext_assoc]; rfl
  | outd b => rw [exec_outd, outputData_update (portBlind_bookkeep hr) hs, exec_outd, onNext_assoc, onNext_assoc]; rfl
  | alu op a b => cases op <;> rfl
  | _ => rfl

/-- The port call of the opcode byte in IR (R98). -/
theorem position3_bookkeep {c : Nat → Nat} {r : Bool → Bool} {s : State} (hr : KeepsClearing r)
    (hs : SameReply (State.bookkeep c r) (portCallOf (decodeOp s.ir 0#8) s) s) :
    position3 (s.bookkeep c r) = onNext (position3 s) (fun t => .next (t.bookkeep c r)) := by
  have sameIr : (s.bookkeep c r).ir = s.ir := rfl
  unfold position3
  rw [sameIr]
  cases hc : opClass s.ir with
  | io =>
    rw [decodeOp, hc] at hs
    dsimp only at hs ⊢
    cases hsub : ioSub s.ir with
    | ind => rw [hsub] at hs; exact inputData_update (portBlind_bookkeep hr) hs
    | outd => rw [hsub] at hs; exact outputData_update (portBlind_bookkeep hr) hs
    | ina | outa => rfl
  | _ => rfl

theorem position4_bookkeep (c : Nat → Nat) (r : Bool → Bool) (s : State) :
    position4 (s.bookkeep c r) = onNext (position4 s) (fun t => .next (t.bookkeep c r)) := by
  have sameIr : (s.bookkeep c r).ir = s.ir := rfl
  unfold position4
  rw [sameIr]
  cases opClass s.ir <;> rfl

theorem position5_bookkeep (c : Nat → Nat) (r : Bool → Bool) (s : State) :
    position5 (s.bookkeep c r) = onNext (position5 s) (fun t => .next (t.bookkeep c r)) := by
  have sameIr : (s.bookkeep c r).ir = s.ir := rfl
  have sameFlags : (s.bookkeep c r).flags = s.flags := rfl
  unfold position5
  rw [sameIr, sameFlags]
  cases opClass s.ir with
  | jxxx => cases h : jumpTaken s.flags (fieldMask s.ir) <;> rfl
  | alu op => cases op <;> rfl
  | _ => rfl

/-- Only position 3 can make a port call, so only there a reply has to be the same. -/
theorem positionAction_bookkeep {c : Nat → Nat} {r : Bool → Bool} {p : Nat} {s : State} (hr : KeepsClearing r)
    (hs : p = 3 → SameReply (State.bookkeep c r) (portCallOf (decodeOp s.ir 0#8) s) s) :
    positionAction p (s.bookkeep c r) = onNext (positionAction p s) (fun t => .next (t.bookkeep c r)) := by
  match p with
  | 0 | 1 | 2 => rfl
  | 3 => exact position3_bookkeep hr (hs rfl)
  | 4 => exact position4_bookkeep c r s
  | 5 => exact position5_bookkeep c r s
  | _ + 6 => rfl

theorem positionAction_tick (p : Nat) (s : State) (n : Nat) :
    positionAction p (s.tick n) = onNext (positionAction p s) (fun t => .next (t.tick n)) :=
  positionAction_bookkeep keepsClearing_id fun _ => sameReply_clock (· + n) _ s

/-- The meanings take no clock. -/
theorem exec_withClock (i : Instr) (s : State) (n : Nat) :
    exec i { s with clockCycle := n } = onNext (exec i s) (fun t => .next { t with clockCycle := n }) :=
  exec_bookkeep keepsClearing_id (sameReply_clock (fun _ => n) _ s)

end Sys2Proof.Machine

/-! The micro-schedule, a class at a time (spec/41_microcycle_engine.md R98): what positions 3, 4 and 5 do with the opcode
byte in IR. -/

namespace Sys2Proof.Machine

theorem ld_schedule {s : State} (h : s.ir.toNat / 16 = 0) :
    position3 s = .next { s with mar := s.reg (regA s.ir) } ∧
    position4 s = .next (s.setReg (regB s.ir) (s.readByte s.mar)) ∧ position5 s = .next s := by
  simp [position3, position4, position5, opClass_eq, h, classOfNumber]

theorem st_schedule {s : State} (h : s.ir.toNat / 16 = 1) :
    position3 s = .next { s with mar := s.reg (regA s.ir) } ∧
    position4 s = .next (s.writeByte s.mar (s.reg (regB s.ir))) ∧ position5 s = .next s := by
  simp [position3, position4, position5, opClass_eq, h, classOfNumber]

theorem data_schedule {s : State} (h : s.ir.toNat / 16 = 2) :
    position3 s = .next { s with mar := s.pc, acc := s.pc + 1#8 } ∧
    position4 s = .next (s.setReg (regB s.ir) (s.readByte s.mar)) ∧ position5 s = .next { s with pc := s.acc } := by
  simp [position3, position4, position5, opClass_eq, h, classOfNumber]

theorem jmpr_schedule {s : State} (h : s.ir.toNat / 16 = 3) :
    position3 s = .next { s with pc := s.reg (regB s.ir) } ∧ position4 s = .next s ∧ position5 s = .next s := by
  simp [position3, position4, position5, opClass_eq, h, classOfNumber]

theorem jmp_schedule {s : State} (h : s.ir.toNat / 16 = 4) :
    position3 s = .next { s with mar := s.pc } ∧
    position4 s = .next { s with pc := s.readByte s.mar } ∧ position5 s = .next s := by
  simp [position3, position4, position5, opClass_eq, h, classOfNumber]

/-- The jump condition of the model is the one of R112. -/
theorem jumpTaken_iff (flags mask : FlagBits) : jumpTaken flags mask = true ↔ flags &&& mask ≠ 0#4 := by
  simp [jumpTaken]

theorem jxxx_schedule {s : State} (h : s.ir.toNat / 16 = 5) :
    position3 s = .next { s with mar := s.pc, acc := s.pc + 1#8 } ∧
    position4 s = .next { s with pc := s.acc } ∧
    position5 s = .next { s with
      pc := if s.flags &&& s.ir.extractLsb' 0 4 ≠ 0#4 then s.readByte s.mar else s.pc } := by
  have taken : jumpTaken s.flags (fieldMask s.ir) = true ↔ s.flags &&& s.ir.extractLsb' 0 4 ≠ 0#4 :=
    jumpTaken_iff s.flags (fieldMask s.ir)
  by_cases hj : s.flags &&& s.ir.extractLsb' 0 4 ≠ 0#4
  · simp [position3, position4, position5, opClass_eq, h, classOfNumber, taken.mpr hj, if_pos hj]
  · have notTaken : jumpTaken s.flags (fieldMask s.ir) = false := Bool.eq_false_iff.mpr (mt taken.mp hj)
    simp [position3, position4, position5, opClass_eq, h, classOfNumber, notTaken, if_neg hj]

theorem clf_schedule {s : State} (h : s.ir.toNat / 16 = 6) :
    position3 s = .next { s with flags := 0#4 } ∧ position4 s = .next s ∧ position5 s = .next s := by
  simp [position3, position4, position5, opClass_eq, h, classOfNumber]

/-- Whatever the submode, position 3 does all of an IO instruction but the advance of PC. -/
theorem io_positions4and5 {s : State} (h : s.ir.toNat / 16 = 7) : position4 s = .next s ∧ position5 s = .next s := by
  simp [position4, position5, opClass_eq, h, classOfNumber]

theorem io_position3 {s : State} (sub : IoSubmode) (h : s.ir.toNat / 4 = 28 + (numberOfSubmode sub).toNat) :
    position3 s = ioPosition3 sub (regB s.ir) s := by
  obtain ⟨ind, ina, outd, outa⟩ := ioSub_of_number s.ir
  obtain ⟨io, submode⟩ : opClass s.ir = .io ∧ ioSub s.ir = sub := by
    cases sub with
    | ind => exact ind h
    | ina => exact ina h
    | outd => exact outd h
    | outa => exact outa h
  rw [position3, io, submode]
  rfl

theorem alu_position3 {s : State} (h : 8 ≤ s.ir.toNat / 16) : position3 s = .next { s with tmp := s.reg (regB s.ir) } := by
  obtain ⟨-, -, -, -, -, -, -, -, alu⟩ := opClass_of_number s.ir
  rw [position3, alu h]

theorem carryFlag_eq (f : FlagBits) : carryFlag f = f.getLsbD 3 := rfl

theorem alu_position4 {s : State} (h : 8 ≤ s.ir.toNat / 16) :
    position4 s = .next { s with
      acc := (alu (aluOpOfCode (s.ir.extractLsb' 4 3)) (s.reg (regA s.ir)) s.tmp (s.flags.getLsbD 3)).c
      flags := (alu (aluOpOfCode (s.ir.extractLsb' 4 3)) (s.reg (regA s.ir)) s.tmp (s.flags.getLsbD 3)).f } := by
  obtain ⟨-, -, -, -, -, -, -, -, alu⟩ := opClass_of_number s.ir
  rw [position4, alu h]
  rfl

theorem position5_aluOp {s : State} {op : AluOp} (h : opClass s.ir = .alu op) :
    position5 s = .next (if op = .cmp then s else s.setReg (regB s.ir) s.acc) := by
  rw [position5, h]

/-- Class 15 is CMP, which position 5 leaves without a result; every other ALU class has one (R73, R74). -/
theorem alu_position5 {s : State} (h : 8 ≤ s.ir.toNat / 16) :
    position5 s = .next (if s.ir.toNat / 16 = 15 then s else s.setReg (regB s.ir) s.acc) := by
  obtain ⟨-, -, -, -, -, -, -, -, alu⟩ := opClass_of_number s.ir
  have below : s.ir.toNat < 256 := s.ir.isLt
  have code := toNat_fieldAluOp s.ir
  have isCmp : aluOpOfCode (fieldAluOp s.ir) = .cmp ↔ s.ir.toNat / 16 = 15 := by
    have onlySeven : ∀ c : BitVec 3, aluOpOfCode c = .cmp ↔ c.toNat = 7 := by decide
    rw [onlySeven]
    omega
  rw [position5_aluOp (alu h)]
  simp only [isCmp]

/-- Settles O25: the rows of position 3. -/
theorem microScheduleOfPositionThree : Obligations.MicroScheduleOfPositionThree := by
  unfold Obligations.MicroScheduleOfPositionThree
  intro s
  refine ⟨fun h => ?_, fun h => ?_, fun h => (jmpr_schedule h).1, fun h => (jmp_schedule h).1, fun h => (clf_schedule h).1,
    io_position3 .ind, io_position3 .ina, io_position3 .outd, io_position3 .outa, alu_position3⟩
  · obtain h | h : s.ir.toNat / 16 = 0 ∨ s.ir.toNat / 16 = 1 := by omega
    · exact (ld_schedule h).1
    · exact (st_schedule h).1
  · obtain h | h := h
    · exact (data_schedule h).1
    · exact (jxxx_schedule h).1

/-- Settles O26: the rows of positions 4 and 5. -/
theorem microScheduleOfPositionsFourAndFive : Obligations.MicroScheduleOfPositionsFourAndFive := by
  unfold Obligations.MicroScheduleOfPositionsFourAndFive
  intro s
  refine ⟨fun h => ?_, fun h => ?_, fun h => ?_, fun h => (jmp_schedule h).2, fun h => (jxxx_schedule h).2, alu_position4,
    fun h => ?_, fun h => ?_, fun ⟨aluHalf, notCmp⟩ => ?_⟩
  · obtain h | h := h
    · exact (ld_schedule h).2.1
    · exact (data_schedule h).2.1
  · exact (st_schedule h).2.1
  · obtain h | h | h := h
    · exact (jmpr_schedule h).2
    · exact (clf_schedule h).2
    · exact io_positions4and5 h
  · obtain h | h | h : s.ir.toNat / 16 = 0 ∨ s.ir.toNat / 16 = 1 ∨ s.ir.toNat / 16 = 15 := by omega
    · exact (ld_schedule h).2.2
    · exact (st_schedule h).2.2
    · rw [alu_position5 (by omega), if_pos h]
  · exact (data_schedule h).2.2
  · rw [alu_position5 aluHalf, if_neg (by omega)]

end Sys2Proof.Machine

/-! Runs of positions without their clock. No action reads clock_cycle, so a run of micro-cycles inside an instruction is
the actions of its positions one after the other, and then the ticks. -/

namespace Sys2Proof.Machine

/-- The actions of `k` positions from position `p` on. -/
def runActions : Nat → Nat → State → Host.Outcome State Fault Refusal
  | _, 0, s => .next s
  | p, k + 1, s => onNext (positionAction p s) (runActions (p + 1) k)

theorem runActions_succ (p k : Nat) (s : State) :
    runActions p (k + 1) s = onNext (positionAction p s) (runActions (p + 1) k) := rfl

theorem runActions_tick (p k : Nat) (s : State) (n : Nat) :
    runActions p k (s.tick n) = onNext (runActions p k s) (fun t => .next (t.tick n)) := by
  induction k generalizing p s with
  | zero => rfl
  | succ k ih =>
    rw [runActions_succ, positionAction_tick, onNext_assoc, runActions_succ, onNext_assoc]
    exact onNext_congr fun m _ => ih (p + 1) m

theorem State.tick_tick (s : State) (m n : Nat) : (s.tick m).tick n = s.tick (n + m) := by
  have sum : s.clockCycle + m + n = s.clockCycle + (n + m) := by omega
  exact congrArg (fun c => { s with clockCycle := c }) sum

/-- The micro-cycles up to the boundary, at most, by their actions. -/
theorem runCycles_eq_runActions {p k : Nat} {s : State} (hp : s.clockCycle % 7 = p) (hk : p + k ≤ 7) :
    runCycles k s = onNext (runActions p k s) (fun t => .next (t.tick k)) := by
  induction k generalizing p s with
  | zero => rfl
  | succ k ih =>
    have first : runCycles (k + 1) s = onNext (positionAction p s) (fun m => runCycles k (m.tick 1)) := by
      rw [runCycles, stepCycle_at hp, onNext_assoc]
      rfl
    rw [first, runActions_succ, onNext_assoc]
    refine onNext_congr fun m action => ?_
    have clock : (m.tick 1).clockCycle = s.clockCycle + 1 := congrArg (· + 1) (positionAction_clockCycle action)
    cases k with
    | zero => rfl
    | succ k =>
      rw [ih (p := p + 1) (by omega) (by omega), runActions_tick, onNext_assoc]
      exact onNext_congr fun t _ => congrArg _ (State.tick_tick t 1 (k + 1))

/-- The state at position 3: the opcode fetched and PC moved past it (R100). -/
def State.fetched (s : State) : State := { s.loadOpcode with pc := s.pc + 1#8 }

theorem State.fetched_eq (s : State) : s.fetched =
    { s with ir := s.readByte s.pc, mar := s.pc, acc := s.pc + 1#8, pc := s.pc + 1#8 } := by
  rw [State.fetched, State.loadOpcode_eq]

theorem runActions_fetch (s : State) : runActions 0 3 s = .next s.fetched := by
  rw [State.fetched_eq, runActions_succ, positionAction, position0_eq]
  rfl

/-- An instruction is its fetch and its positions 3 to 6. -/
theorem runActions_instruction (s : State) : runActions 0 7 s = runActions 3 4 s.fetched := by
  rw [State.fetched_eq, runActions_succ, positionAction, position0_eq]
  rfl

/-- Settles O24: three positions, three ticks. -/
theorem netEffectOfTheFetch : Obligations.NetEffectOfTheFetch := by
  unfold Obligations.NetEffectOfTheFetch
  intro s boundary
  rw [runCycles_eq_runActions boundary (by omega), runActions_fetch, State.fetched_eq]
  rfl

end Sys2Proof.Machine

/-! The simulation (spec/41_microcycle_engine.md R98, R101; spec/45_fast_dispatch.md R130): from a boundary, positions 3 to 6
do to the fetched state what the meaning of the instruction does. -/

namespace Sys2Proof.Machine

theorem fetchInstr_eq (s : State) : s.fetchInstr = decodeOp (s.readByte s.pc) (s.readByte (s.pc + 1#8)) := by
  rw [State.fetchInstr, afterOpcode_eq]

/-- A class that is done after position 3. -/
theorem runActions_of_position3 {u : State} {o : Host.Outcome State Fault Refusal} (h3 : position3 u = o)
    (later : ∀ t, o = .next t → position4 t = .next t ∧ position5 t = .next t) : runActions 3 4 u = o := by
  calc runActions 3 4 u
    _ = onNext o (runActions 4 3) := by rw [runActions_succ, positionAction, h3]
    _ = onNext o .next := onNext_congr fun t ht => by
        obtain ⟨h4, h5⟩ := later t ht
        simp [runActions, positionAction, h4, h5, position6]
    _ = o := by cases o <;> rfl

/-- A class whose three positions all answer a next state. -/
theorem runActions_of_positions {u v w t : State} (h3 : position3 u = .next v) (h4 : position4 v = .next w)
    (h5 : position5 w = .next t) : runActions 3 4 u = .next t := by
  simp [runActions, positionAction, h3, h4, h5, position6]

/-- PC is no part of a port transfer: neither of its effects nor of what a handler may look at (R118, D15). -/
theorem portBlind_pc (p : Byte) : PortBlind (fun s => { s with pc := p }) where
  ioaddr _ := rfl
  inHandlers _ := rfl
  outHandlers _ := rfl
  reg _ _ := rfl
  setReg _ _ _ := rfl
  afterHandler _ _ _ _ := rfl

/-- The meaning moves PC past the opcode after its transfer, the schedule before it: one transfer in both. -/
theorem exec_ind_fetched (b : Reg) (s : State) : inputData b s.fetched = exec (.ind b) s.loadOpcode := by
  have transfer : inputData b s.fetched = onNext (inputData b s.loadOpcode) (fun t => .next { t with pc := s.pc + 1#8 }) :=
    inputData_update (portBlind_pc (s.pc + 1#8)) fun _ _ => rfl
  rw [transfer, exec_ind]
  refine onNext_congr fun t ht => ?_
  have pc : t.pc = s.pc := by rw [inputData_frame ht]; rfl
  rw [State.advance_eq, pc]

theorem exec_outd_fetched (b : Reg) (s : State) : outputData b s.fetched = exec (.outd b) s.loadOpcode := by
  have transfer : outputData b s.fetched = onNext (outputData b s.loadOpcode) (fun t => .next { t with pc := s.pc + 1#8 }) :=
    outputData_update (portBlind_pc (s.pc + 1#8)) fun _ _ => rfl
  rw [transfer, exec_outd]
  refine onNext_congr fun t ht => ?_
  have pc : t.pc = s.pc := by rw [outputData_frame ht]; rfl
  rw [State.advance_eq, pc]

/-- Position 3 of an IO instruction is its meaning, and leaves the opcode in IR. -/
theorem ioPosition3_fetched (sub : IoSubmode) (b : Reg) (s : State) :
    ioPosition3 sub b s.fetched = exec (ioInstr sub b) s.loadOpcode ∧
    ∀ t, ioPosition3 sub b s.fetched = .next t → t.ir = s.fetched.ir := by
  cases sub with
  | ind => exact ⟨exec_ind_fetched b s, fun t ht => by rw [inputData_frame ht]⟩
  | outd => exact ⟨exec_outd_fetched b s, fun t ht => by rw [outputData_frame ht]⟩
  | ina =>
    refine ⟨?_, fun t ht => by cases ht; rfl⟩
    rw [ioInstr, exec_ina]
    rfl
  | outa =>
    refine ⟨?_, fun t ht => by cases ht; rfl⟩
    rw [ioInstr, exec_outa]
    rfl

theorem runActions_eq_exec_io {s : State} (imm : Byte) (h : (s.readByte s.pc).toNat / 16 = 7) :
    runActions 3 4 s.fetched = exec (decodeOp (s.readByte s.pc) imm) s.loadOpcode := by
  have io : opClass (s.readByte s.pc) = .io := by rw [opClass_eq, h, classOfNumber]
  obtain ⟨meaning, keepsIr⟩ := ioPosition3_fetched (ioSub (s.readByte s.pc)) (ioReg (s.readByte s.pc)) s
  have decoded : decodeOp (s.readByte s.pc) imm = ioInstr (ioSub (s.readByte s.pc)) (ioReg (s.readByte s.pc)) := by
    rw [decodeOp, io]
  have transfer : position3 s.fetched = ioPosition3 (ioSub (s.readByte s.pc)) (ioReg (s.readByte s.pc)) s.fetched := by
    rw [position3, show opClass s.fetched.ir = .io from io]
    rfl
  rw [decoded, ← meaning]
  refine runActions_of_position3 transfer fun t ht => io_positions4and5 ?_
  rw [keepsIr t ht]
  exact h

/-- The three steps of the ALU class in one (R98): TMP, then ACC and FLAGS, then the result's register. -/
theorem runActions_alu {u : State} {op : AluOp} (h : opClass u.ir = .alu op) :
    runActions 3 4 u = .next { u with
      regs := if op = .cmp then u.regs
        else writeRegister u.regs (regB u.ir) (aluResult op (u.reg (regA u.ir)) (u.reg (regB u.ir)) (carryFlag u.flags))
      acc := aluResult op (u.reg (regA u.ir)) (u.reg (regB u.ir)) (carryFlag u.flags)
      tmp := u.reg (regB u.ir)
      flags := aluFlags op (u.reg (regA u.ir)) (u.reg (regB u.ir)) (carryFlag u.flags) } := by
  have h3 : position3 u = .next { u with tmp := u.reg (regB u.ir) } := by rw [position3, h]
  have h4 : position4 { u with tmp := u.reg (regB u.ir) } = .next { u with
      tmp := u.reg (regB u.ir)
      acc := aluResult op (u.reg (regA u.ir)) (u.reg (regB u.ir)) (carryFlag u.flags)
      flags := aluFlags op (u.reg (regA u.ir)) (u.reg (regB u.ir)) (carryFlag u.flags) } := by
    simp only [position4, h]
    rfl
  rw [runActions_of_positions h3 h4 (position5_aluOp h)]
  by_cases hop : op = .cmp
  · rw [if_pos hop, if_pos hop]
  · rw [if_neg hop, if_neg hop]
    rfl

theorem runActions_eq_exec_alu {s : State} (imm : Byte) (h : 8 ≤ (s.readByte s.pc).toNat / 16) :
    runActions 3 4 s.fetched = exec (decodeOp (s.readByte s.pc) imm) s.loadOpcode := by
  obtain ⟨-, -, -, -, -, -, -, -, alu⟩ := opClass_of_number (s.readByte s.pc)
  obtain ⟨decoded, -⟩ := alu_decodes_of_code imm h
  rw [decoded, exec_aluInstr, aluClass_eq, runActions_alu (u := s.fetched) (alu h)]
  rfl

/-- The simulation, a class of opcodes at a time. -/
theorem runActions_eq_exec (s : State) : runActions 3 4 s.fetched = exec s.fetchInstr s.loadOpcode := by
  rw [fetchInstr_eq]
  generalize himm : s.readByte (s.pc + 1#8) = imm
  have pastImmediate : s.pc + 2#8 = s.pc + 1#8 + 1#8 := by rw [BitVec.add_assoc]; rfl
  match h : (s.readByte s.pc).toNat / 16 with
  | 0 =>
    obtain ⟨decoded, -⟩ := ld_decodes (s.readByte s.pc) imm h
    rw [decoded, exec_ld]
    exact runActions_of_positions (ld_schedule h).1 (ld_schedule h).2.1 (ld_schedule h).2.2
  | 1 =>
    obtain ⟨decoded, -⟩ := st_decodes (s.readByte s.pc) imm h
    rw [decoded, exec_st]
    exact runActions_of_positions (st_schedule h).1 (st_schedule h).2.1 (st_schedule h).2.2
  | 2 =>
    obtain ⟨decoded, -⟩ := data_decodes (s.readByte s.pc) imm h
    rw [decoded, exec_data, State.loadOpcode_pc, pastImmediate, ← himm]
    exact runActions_of_positions (data_schedule h).1 (data_schedule h).2.1 (data_schedule h).2.2
  | 3 =>
    obtain ⟨decoded, -⟩ := jmpr_decodes (s.readByte s.pc) imm h
    rw [decoded, exec_jmpr]
    exact runActions_of_positions (jmpr_schedule h).1 (jmpr_schedule h).2.1 (jmpr_schedule h).2.2
  | 4 =>
    obtain ⟨decoded, -⟩ := jmp_decodes (s.readByte s.pc) imm h
    rw [decoded, exec_jmp, ← himm]
    exact runActions_of_positions (jmp_schedule h).1 (jmp_schedule h).2.1 (jmp_schedule h).2.2
  | 5 =>
    obtain ⟨decoded, -⟩ := jxxx_decodes (s.readByte s.pc) imm h
    rw [decoded, exec_jxxx, State.loadOpcode_pc, pastImmediate, ← himm]
    simp only [jumpTaken_iff]
    exact runActions_of_positions (jxxx_schedule h).1 (jxxx_schedule h).2.1 (jxxx_schedule h).2.2
  | 6 =>
    obtain ⟨decoded, -⟩ := clf_decodes (s.readByte s.pc) imm h
    rw [decoded, exec_clf]
    exact runActions_of_positions (clf_schedule h).1 (clf_schedule h).2.1 (clf_schedule h).2.2
  | 7 => exact runActions_eq_exec_io imm h
  | n + 8 => exact runActions_eq_exec_alu imm (by omega)

/-- Seven micro-cycles from a boundary: the meaning of the instruction at PC, and seven ticks. -/
theorem runCycles_seven {s : State} (boundary : s.clockCycle % 7 = 0) :
    runCycles 7 s = onNext (exec s.fetchInstr s.loadOpcode) (fun t => .next (t.tick 7)) := by
  rw [runCycles_eq_runActions boundary (by omega), runActions_instruction, runActions_eq_exec]

/-- The bytes at PC are always one whole instruction, the one the engines fetch. -/
theorem fetchInstr_of_decode {s : State} {i : Instr} {rest : List Byte} (h : decode s.fetchBytes = .ok (i, rest)) :
    s.fetchInstr = i := by
  rw [State.fetchBytes, decode_cons_cons] at h
  injection h with same
  injection same

/-! A step of the model is the call the driver makes. -/

theorem step_cycle {s : State} (h : s.driver = .cycle) : step s = stepCycle s := by rw [step, h]

theorem step_instruction {s : State} (h : s.driver = .instruction) : step s = stepInstruction s := by rw [step, h]

theorem step_fast {s : State} (h : s.driver = .fast) : step s = stepInstructionFast s := by rw [step, h]

/-- Settles O13: the fast engine looks its handler up by the decoded instruction. -/
theorem fastStepRunsTheDecodedInstruction : Obligations.FastStepRunsTheDecodedInstruction := by
  unfold Obligations.FastStepRunsTheDecodedInstruction
  intro s i rest fast decoded _
  rw [step_fast fast, stepInstructionFast_eq, fetchInstr_of_decode decoded, State.loadOpcode_eq]

/-- Settles O14: seven micro-cycles by the simulation, and a step by instruction is those seven at a boundary. -/
theorem microStepsRunTheDecodedInstruction : Obligations.MicroStepsRunTheDecodedInstruction := by
  unfold Obligations.MicroStepsRunTheDecodedInstruction
  intro s i rest boundary decoded _
  rw [State.position_eq] at boundary
  have seven := runCycles_seven boundary
  rw [fetchInstr_of_decode decoded, State.loadOpcode_eq] at seven
  refine ⟨fun byInstruction => ?_, seven⟩
  rw [step_instruction byInstruction, stepInstruction_eq_runCycles, boundary]
  exact seven

end Sys2Proof.Machine

/-! The clock under the fast engine (R128), and the updates of PC and the latches, which no handler sees (R118, D15). -/

namespace Sys2Proof.Machine

/-- A meaning is the same from every clock and puts the clock it was given in the state it answers. -/
theorem exec_clockCycle {i : Instr} {s t : State} (h : exec i s = .next t) : t.clockCycle = s.clockCycle := by
  have sameClock := exec_withClock i s s.clockCycle
  rw [h, onNext_next] at sameClock
  injection sameClock with same
  exact (congrArg State.clockCycle same :)

theorem stepInstructionFast_clockCycle {s t : State} (h : stepInstructionFast s = .next t) :
    t.clockCycle = s.clockCycle + 6 := by
  rw [stepInstructionFast_eq, onNext_eq_next] at h
  obtain ⟨m, meaning, ticked⟩ := h
  cases ticked
  exact congrArg (· + 6) (exec_clockCycle (s := s.loadOpcode) meaning)

/-- Settles O22: a call of either engine. -/
theorem clockGrowsByOneOrSix : Obligations.ClockGrowsByOneOrSix := by
  unfold Obligations.ClockGrowsByOneOrSix
  exact ⟨fun s t => stepCycle_clockCycle, fun s t => stepInstructionFast_clockCycle⟩

/-- The state with PC and the latches rewritten. -/
def State.relatch (s : State) (pc ir mar acc tmp : Byte) : State :=
  { s with pc := pc, ir := ir, mar := mar, acc := acc, tmp := tmp }

theorem portBlind_relatch (pc ir mar acc tmp : Byte) : PortBlind (·.relatch pc ir mar acc tmp) where
  ioaddr _ := rfl
  inHandlers _ := rfl
  outHandlers _ := rfl
  reg _ _ := rfl
  setReg _ _ _ := rfl
  afterHandler _ _ _ _ := rfl

/-- A port call is made from registers, IOADDR and handler tables. -/
theorem portCallOf_relatch (i : Instr) (s : State) (pc ir mar acc tmp : Byte) :
    portCallOf i (s.relatch pc ir mar acc tmp) = portCallOf i s := by
  cases i <;> rfl

theorem blockedOn_relatch (i : Instr) (s : State) (pc ir mar acc tmp : Byte) :
    blockedOn i (s.relatch pc ir mar acc tmp) ↔ blockedOn i s := by
  rw [blockedOn_iff, blockedOn_iff, portCallOf_relatch]
  rfl

end Sys2Proof.Machine

/-! The equivalence of the two engines (spec/45_fast_dispatch.md R130, R132). -/

namespace Sys2Proof.Machine

/-- One instruction: the micro-cycle engine ends where the fast engine does, with its own clock. -/
theorem runCycles_seven_eq_fast {s : State} (boundary : s.clockCycle % 7 = 0) :
    runCycles 7 s = onNext (stepInstructionFast s) (fun f => .next { f with clockCycle := s.clockCycle + 7 }) := by
  rw [runCycles_seven boundary, stepInstructionFast_eq, onNext_assoc]
  refine onNext_congr fun t meaning => ?_
  have clock : t.clockCycle = s.clockCycle := exec_clockCycle (s := s.loadOpcode) meaning
  rw [onNext_next, ← clock]
  rfl

/-- The fast engine reads no clock. -/
theorem stepInstructionFast_withClock (s : State) (n : Nat) :
    stepInstructionFast { s with clockCycle := n } =
      onNext (stepInstructionFast s) (fun f => .next { f with clockCycle := n + 6 }) := by
  rw [stepInstructionFast_eq, stepInstructionFast_eq, onNext_assoc]
  have meaning := exec_withClock s.fetchInstr s.loadOpcode n
  exact (congrArg (onNext · _) meaning).trans (onNext_assoc _ _ _)

theorem runFast_succ (n : Nat) (s : State) : runFast (n + 1) s = onNext (stepInstructionFast s) (runFast n) := rfl

theorem runFast_withClock (n c : Nat) (s : State) :
    runFast n { s with clockCycle := c } = onNext (runFast n s) (fun f => .next { f with clockCycle := c + 6 * n }) := by
  induction n generalizing s c with
  | zero => rfl
  | succ n ih =>
    rw [runFast_succ, stepInstructionFast_withClock, onNext_assoc, runFast_succ, onNext_assoc]
    refine onNext_congr fun f _ => (ih (c + 6) f).trans ?_
    rw [show c + 6 + 6 * n = c + 6 * (n + 1) by omega]

/-- n instructions: 7n micro-cycles end where n fast calls do, with their own clock. -/
theorem runCycles_eq_runFast {n : Nat} {s : State} (boundary : s.clockCycle % 7 = 0) :
    runCycles (7 * n) s = onNext (runFast n s) (fun f => .next { f with clockCycle := s.clockCycle + 7 * n }) := by
  induction n generalizing s with
  | zero => rfl
  | succ n ih =>
    rw [show 7 * (n + 1) = 7 + 7 * n by omega, runCycles_add, runCycles_seven_eq_fast boundary, onNext_assoc, runFast_succ,
      onNext_assoc]
    refine onNext_congr fun f _ => ?_
    have nextBoundary : (s.clockCycle + 7) % 7 = 0 := by omega
    rw [onNext_next, ih (s := { f with clockCycle := s.clockCycle + 7 }) nextBoundary, runFast_withClock, onNext_assoc]
    refine onNext_congr fun g _ => ?_
    rw [onNext_next, show s.clockCycle + 7 + 7 * n = s.clockCycle + (7 + 7 * n) by omega]

/-- From a boundary n calls of `step_instruction()` are 7n micro-cycles. -/
theorem runInstructions_eq_runCycles {n : Nat} {s : State} (boundary : s.clockCycle % 7 = 0) :
    runInstructions n s = runCycles (7 * n) s := by
  induction n generalizing s with
  | zero => rfl
  | succ n ih =>
    rw [show 7 * (n + 1) = 7 + 7 * n by omega, runCycles_add, runInstructions, stepInstruction_eq_runCycles, boundary]
    refine onNext_congr fun t call => ih ?_
    have clock : t.clockCycle = s.clockCycle + 7 := runCycles_clockCycle call
    omega

theorem runFast_clockCycle {n : Nat} {s t : State} (h : runFast n s = .next t) : t.clockCycle = s.clockCycle + 6 * n := by
  induction n generalizing s with
  | zero => exact clockCycle_of_next h rfl
  | succ n ih =>
    obtain ⟨m, first, rest⟩ := onNext_eq_next.mp h
    have sixMore : m.clockCycle = s.clockCycle + 6 := stepInstructionFast_clockCycle first
    have theRest : t.clockCycle = m.clockCycle + 6 * n := ih rest
    omega

/-- Settles O20: the 7n micro-cycles in terms of the n fast calls, read both ways. -/
theorem enginesAgreeOnManyInstructions : Obligations.EnginesAgreeOnManyInstructions := by
  unfold Obligations.EnginesAgreeOnManyInstructions
  intro n s boundary
  have cycles := runCycles_eq_runFast (n := n) boundary
  refine ⟨fun f fast => ?_, fun m micro => ?_⟩
  · rw [fast, onNext_next] at cycles
    exact ⟨_, cycles, (runInstructions_eq_runCycles boundary).trans cycles, rfl, runFast_clockCycle fast, rfl⟩
  · rw [micro] at cycles
    obtain ⟨f, fast, -⟩ := onNext_eq_next.mp cycles.symm
    exact ⟨f, fast⟩

/-- A fast call hangs exactly on the instruction at PC. -/
theorem stepInstructionFast_hangsIff (s : State) : HangsIff (blockedOn s.fetchInstr s) (stepInstructionFast s) := by
  have sameState : blockedOn s.fetchInstr s.loadOpcode ↔ blockedOn s.fetchInstr s := blockedOn_relatch ..
  exact ((exec_hangsIff s.fetchInstr s.loadOpcode).congr sameState).onNext fun _ => .next _

/-- Settles O18: the fast call completes, and the seven micro-cycles are it with another clock. -/
theorem enginesAgreeOnOneInstruction : Obligations.EnginesAgreeOnOneInstruction := by
  unfold Obligations.EnginesAgreeOnOneInstruction
  intro s boundary free
  obtain ⟨f, fast⟩ := (stepInstructionFast_hangsIff s).exists_next free
  have cycles := runCycles_seven_eq_fast boundary
  rw [fast, onNext_next] at cycles
  exact ⟨_, f, cycles, fast, rfl, rfl, stepInstructionFast_clockCycle fast⟩

/-- Settles O19: one law for the fast call, and the micro-cycles add no hang to it. -/
theorem bothEnginesHangOnTheSameHandler : Obligations.BothEnginesHangOnTheSameHandler := by
  unfold Obligations.BothEnginesHangOnTheSameHandler
  intro s boundary
  have fast := stepInstructionFast_hangsIff s
  have cycles : HangsIff (blockedOn s.fetchInstr s) (runCycles 7 s) := by
    rw [runCycles_seven_eq_fast boundary]
    exact fast.onNext fun _ => .next _
  exact ⟨cycles.fault_iff _, fast.fault_iff _⟩

end Sys2Proof.Machine

/-! What one call of either engine can do to RAM, FLAGS, the handler tables, `running` and the port traffic, said once for
every instruction and every position; the rules of the whole machine follow from it. -/

namespace Sys2Proof.Machine

/-- The answer of an operation that is known to answer `u`. -/
theorem of_next {P : State → Prop} {t u : State} (h : (.next u : Host.Outcome State Fault Refusal) = .next t) (hu : P u) :
    P t := by
  cases h
  exact hu

/-- At most one byte stored, FLAGS an output of the ALU if they are written at all, the tables kept, and `running` cleared
only together with one more event of the port traffic. -/
structure Effect (s t : State) : Prop where
  ram : t.ram = s.ram ∨ ∃ a v : Byte, t.ram = s.ram.write a.toNat v
  flags : t.flags = s.flags ∨ ∃ op a b cin, t.flags = aluFlags op a b cin
  inHandlers : t.inHandlers = s.inHandlers
  outHandlers : t.outHandlers = s.outHandlers
  ports : t.running = s.running ∧ t.traffic = s.traffic ∨
    ∃ halt e, t.running = (s.running && !halt) ∧ t.traffic = s.traffic ++ [e]

/-- An operation on registers, PC, latches, IOADDR and clock alone. -/
theorem Effect.quiet {s t : State} (ram : t.ram = s.ram) (flags : t.flags = s.flags)
    (inHandlers : t.inHandlers = s.inHandlers) (outHandlers : t.outHandlers = s.outHandlers)
    (running : t.running = s.running) (traffic : t.traffic = s.traffic) : Effect s t :=
  ⟨.inl ram, .inl flags, inHandlers, outHandlers, .inl ⟨running, traffic⟩⟩

/-- An operation that besides writes FLAGS from the ALU. -/
theorem Effect.fromAlu {s t : State} (op : AluOp) (a b : Byte) (cin : Bool) (ram : t.ram = s.ram)
    (flags : t.flags = aluFlags op a b cin) (inHandlers : t.inHandlers = s.inHandlers)
    (outHandlers : t.outHandlers = s.outHandlers) (running : t.running = s.running) (traffic : t.traffic = s.traffic) :
    Effect s t :=
  ⟨.inl ram, .inr ⟨op, a, b, cin, flags⟩, inHandlers, outHandlers, .inl ⟨running, traffic⟩⟩

theorem Effect.store (s : State) (a v : Byte) : Effect s (s.writeByte a v) :=
  ⟨.inr ⟨a, v, rfl⟩, .inl rfl, rfl, rfl, .inl ⟨rfl, rfl⟩⟩

/-- PC, latches and clock before and after an operation are of no matter to its effect. -/
theorem Effect.around {s s' t t' : State} (h : Effect s t) (before : s' = { s with
      pc := s'.pc, ir := s'.ir, mar := s'.mar, acc := s'.acc, tmp := s'.tmp, clockCycle := s'.clockCycle })
    (after : t' = { t with
      pc := t'.pc, ir := t'.ir, mar := t'.mar, acc := t'.acc, tmp := t'.tmp, clockCycle := t'.clockCycle }) :
    Effect s' t' := by
  rw [before, after]
  exact ⟨h.ram, h.flags, h.inHandlers, h.outHandlers, h.ports⟩

theorem inputData_effect {b : Reg} {s t : State} (h : inputData b s = .next t) : Effect s t := by
  obtain ⟨-, rfl⟩ | ⟨v, halt, w, -, -, rfl⟩ := inputData_next h
  · exact .quiet rfl rfl rfl rfl rfl rfl
  · exact ⟨.inl rfl, .inl rfl, rfl, rfl, .inr ⟨halt, _, rfl, rfl⟩⟩

theorem outputData_effect {b : Reg} {s t : State} (h : outputData b s = .next t) : Effect s t := by
  obtain ⟨-, rfl⟩ | ⟨v, halt, w, -, -, rfl⟩ := outputData_next h
  · exact .quiet rfl rfl rfl rfl rfl rfl
  · exact ⟨.inl rfl, .inl rfl, rfl, rfl, .inr ⟨halt, _, rfl, rfl⟩⟩

theorem exec_effect {i : Instr} {s t : State} (h : exec i s = .next t) : Effect s t := by
  induction i using Instr.casesByClass with
  | st a b => exact of_next h ((Effect.store s (s.reg a) (s.reg b)).around rfl rfl)
  | clf => exact of_next h (.fromAlu .add 0#8 1#8 false rfl rfl rfl rfl rfl rfl)
  | ind b =>
    obtain ⟨m, transfer, advanced⟩ := onNext_eq_next.mp h
    exact of_next advanced ((inputData_effect transfer).around rfl rfl)
  | outd b =>
    obtain ⟨m, transfer, advanced⟩ := onNext_eq_next.mp h
    exact of_next advanced ((outputData_effect transfer).around rfl rfl)
  | alu op a b =>
    rw [exec_aluInstr, aluClass_eq] at h
    exact of_next h (.fromAlu op _ _ _ rfl rfl rfl rfl rfl rfl)
  | _ => exact of_next h (.quiet rfl rfl rfl rfl rfl rfl)

theorem ioPosition3_effect {sub : IoSubmode} {b : Reg} {s t : State} (h : ioPosition3 sub b s = .next t) :
    Effect s t := by
  cases sub with
  | ind => exact inputData_effect h
  | outd => exact outputData_effect h
  | ina | outa => exact of_next h (.quiet rfl rfl rfl rfl rfl rfl)

theorem position3_effect {s t : State} (h : position3 s = .next t) : Effect s t := by
  unfold position3 at h
  cases hc : opClass s.ir <;> rw [hc] at h
  case io => exact ioPosition3_effect h
  case clf => exact of_next h (.fromAlu .add 0#8 1#8 false rfl rfl rfl rfl rfl rfl)
  all_goals exact of_next h (.quiet rfl rfl rfl rfl rfl rfl)

theorem position4_effect {s t : State} (h : position4 s = .next t) : Effect s t := by
  unfold position4 at h
  cases hc : opClass s.ir <;> rw [hc] at h
  case st => exact of_next h (.store s s.mar (s.reg (regB s.ir)))
  case alu op => exact of_next h (.fromAlu op _ _ _ rfl rfl rfl rfl rfl rfl)
  all_goals exact of_next h (.quiet rfl rfl rfl rfl rfl rfl)

theorem position5_effect {s t : State} (h : position5 s = .next t) : Effect s t := by
  cases hc : opClass s.ir with
  | jxxx =>
    rw [position5_jxxx hc] at h
    exact of_next h (by split <;> exact .quiet rfl rfl rfl rfl rfl rfl)
  | alu op =>
    rw [position5_alu hc] at h
    exact of_next h (by split <;> exact .quiet rfl rfl rfl rfl rfl rfl)
  | _ =>
    rw [position5, hc] at h
    exact of_next h (.quiet rfl rfl rfl rfl rfl rfl)

theorem positionAction_effect {p : Nat} {s t : State} (h : positionAction p s = .next t) : Effect s t := by
  match p with
  | 0 | 1 | 2 => exact of_next h (.quiet rfl rfl rfl rfl rfl rfl)
  | 3 => exact position3_effect h
  | 4 => exact position4_effect h
  | 5 => exact position5_effect h
  | _ + 6 => exact of_next h (.quiet rfl rfl rfl rfl rfl rfl)

theorem stepCycle_effect {s t : State} (h : stepCycle s = .next t) : Effect s t := by
  rw [stepCycle_eq, onNext_eq_next] at h
  obtain ⟨m, action, ticked⟩ := h
  exact of_next ticked ((positionAction_effect action).around rfl rfl)

theorem stepInstructionFast_effect {s t : State} (h : stepInstructionFast s = .next t) : Effect s t := by
  rw [stepInstructionFast_eq, onNext_eq_next] at h
  obtain ⟨m, meaning, ticked⟩ := h
  exact of_next ticked ((exec_effect meaning).around rfl rfl)

theorem runCycles_preserves {R : State → State → Prop} (refl : ∀ s, R s s)
    (trans : ∀ {s t u}, R s t → R t u → R s u) (call : ∀ {s t}, stepCycle s = .next t → R s t) {n : Nat} {s t : State}
    (h : runCycles n s = .next t) : R s t := by
  induction n generalizing s with
  | zero => exact of_next h (refl s)
  | succ n ih =>
    obtain ⟨m, first, rest⟩ := onNext_eq_next.mp h
    exact trans (call first) (ih rest)

/-- A relation that bears composition and holds across the effect of one call holds across a step, whichever call the driver
makes. -/
theorem step_preserves {R : State → State → Prop} (refl : ∀ s, R s s) (trans : ∀ {s t u}, R s t → R t u → R s u)
    (effect : ∀ {s t}, Effect s t → R s t) {s t : State} (h : step s = .next t) : R s t := by
  cases driver : s.driver with
  | cycle =>
    rw [step_cycle driver] at h
    exact effect (stepCycle_effect h)
  | instruction =>
    rw [step_instruction driver, stepInstruction_eq_runCycles] at h
    exact runCycles_preserves refl trans (fun call => effect (stepCycle_effect call)) h
  | fast =>
    rw [step_fast driver] at h
    exact effect (stepInstructionFast_effect h)

end Sys2Proof.Machine

/-! The invariant (spec/10_state.md R28; spec/40_alu.md R78 (4)): at reset, across a registration, across a step. -/

namespace Sys2Proof.Machine

/-- Unsigned greater and equal exclude each other. -/
theorem aluFlags_exclusive (op : AluOp) (a b : Byte) (cin : Bool) :
    ¬((aluFlags op a b cin).getLsbD 2 = true ∧ (aluFlags op a b cin).getLsbD 1 = true) := by
  have larger : (aluFlags op a b cin).getLsbD 2 = aluALarger a b := aLargerFlag_packFlags ..
  have equal : (aluFlags op a b cin).getLsbD 1 = aluEqual a b := equalFlag_packFlags ..
  rw [larger, equal, aluALarger, aluEqual, decide_eq_true_iff, beq_iff_eq]
  rintro ⟨greater, rfl⟩
  exact Nat.lt_irrefl _ greater

theorem Effect.inv {s t : State} (h : Effect s t) (inv : s.Inv) : t.Inv where
  ram := by
    obtain same | ⟨a, v, stored⟩ := h.ram
    · exact same ▸ inv.ram
    · exact stored ▸ Memory.wf_write v inv.ram a.isLt
  inHandlers := h.inHandlers ▸ inv.inHandlers
  outHandlers := h.outHandlers ▸ inv.outHandlers
  flags := by
    obtain same | ⟨op, a, b, cin, written⟩ := h.flags
    · exact same ▸ inv.flags
    · exact written ▸ aluFlags_exclusive op a b cin

/-- Settles O15: the invariant is kept by the effect of a call, and so by a step. -/
theorem stepKeepsTheInvariant : Obligations.StepKeepsTheInvariant := by
  unfold Obligations.StepKeepsTheInvariant
  intro s t inv h
  exact step_preserves (R := fun s t => s.Inv → t.Inv) (fun _ => id) (fun first second => second ∘ first) Effect.inv h inv

/-- Settles O10: nothing is listed after reset and no flag is set. -/
theorem resetMeetsTheInvariant : Obligations.ResetMeetsTheInvariant := by
  unfold Obligations.ResetMeetsTheInvariant
  exact ⟨Memory.wf_nil, List.Pairwise.nil, List.Pairwise.nil, by decide⟩

theorem State.resetCall_readByte (s : State) (a : Byte) : s.resetCall.readByte a = 0#8 := State.reset_readByte a

/-- Settles O8: the call is the reset state with the model's three fields, whose RAM and tables are those of reset. -/
theorem resetCallIsTotal : Obligations.ResetCallIsTotal := by
  unfold Obligations.ResetCallIsTotal
  intro s
  exact ⟨rfl, s.resetCall_readByte, State.reset_handlers_default⟩

theorem PortTable.registered_register (t : PortTable) (p q : Byte) :
    (t.register p).registered q = (decide (q = p) || t.registered q) := by
  rw [Bool.eq_iff_iff]
  simp [PortTable.registered, PortTable.mem_register]

/-- Settles O9: the slot, the frame, and the canonical form of the table. -/
theorem registrationFillsOneSlot : Obligations.RegistrationFillsOneSlot := by
  unfold Obligations.RegistrationFillsOneSlot
  intro s p q
  exact ⟨PortTable.registered_register s.inHandlers p q, PortTable.registered_register s.outHandlers p q, rfl, rfl,
    fun inv => ⟨⟨inv.ram, PortTable.wf_register p inv.inHandlers, inv.outHandlers, inv.flags⟩,
      ⟨inv.ram, inv.inHandlers, PortTable.wf_register p inv.outHandlers, inv.flags⟩⟩⟩

end Sys2Proof.Machine

/-! Handler tables and `running` across a step (spec/10_state.md R20, R27). -/

namespace Sys2Proof.Machine

/-- Settles O56: the effect of a call keeps both tables. -/
theorem handlerTablesNeverChange : Obligations.HandlerTablesNeverChange := by
  unfold Obligations.HandlerTablesNeverChange
  intro s t h
  exact step_preserves (R := fun s t => t.inHandlers = s.inHandlers ∧ t.outHandlers = s.outHandlers)
    (fun _ => ⟨rfl, rfl⟩) (fun ⟨in₁, out₁⟩ ⟨in₂, out₂⟩ => ⟨in₂.trans in₁, out₂.trans out₁⟩)
    (fun effect => ⟨effect.inHandlers, effect.outHandlers⟩) h

/-- `running` can only be cleared, and stays as it is where the port traffic, which only grows, has not grown. -/
def RunningFollowsTraffic (s t : State) : Prop :=
  (t.running = true → s.running = true) ∧
    ∃ events, t.traffic = s.traffic ++ events ∧ (events = [] → t.running = s.running)

theorem RunningFollowsTraffic.refl (s : State) : RunningFollowsTraffic s s :=
  ⟨id, [], (List.append_nil _).symm, fun _ => rfl⟩

theorem RunningFollowsTraffic.trans {s t u : State} (first : RunningFollowsTraffic s t)
    (second : RunningFollowsTraffic t u) : RunningFollowsTraffic s u := by
  obtain ⟨set₁, events₁, traffic₁, same₁⟩ := first
  obtain ⟨set₂, events₂, traffic₂, same₂⟩ := second
  refine ⟨set₁ ∘ set₂, events₁ ++ events₂, ?_, fun none => ?_⟩
  · rw [traffic₂, traffic₁, List.append_assoc]
  · obtain ⟨none₁, none₂⟩ := List.append_eq_nil_iff.mp none
    exact (same₂ none₂).trans (same₁ none₁)

theorem Effect.runningFollowsTraffic {s t : State} (h : Effect s t) : RunningFollowsTraffic s t := by
  obtain ⟨running, traffic⟩ | ⟨halt, e, running, traffic⟩ := h.ports
  · exact ⟨fun set => running ▸ set, [], by rw [traffic, List.append_nil], fun _ => running⟩
  · refine ⟨fun set => ?_, [e], traffic, nofun⟩
    rw [running, Bool.and_eq_true] at set
    exact set.1

/-- Settles O57: a step that leaves the traffic as it was has added no event to it. -/
theorem runningIsClearedOnlyByAPortHandler : Obligations.RunningIsClearedOnlyByAPortHandler := by
  unfold Obligations.RunningIsClearedOnlyByAPortHandler
  intro s t h
  obtain ⟨set, events, traffic, same⟩ :=
    step_preserves RunningFollowsTraffic.refl RunningFollowsTraffic.trans Effect.runningFollowsTraffic h
  refine ⟨set, fun changed unchanged => changed (same ?_)⟩
  rw [traffic] at unchanged
  exact List.self_eq_append_right.mp unchanged.symm

end Sys2Proof.Machine

/-! Which instruction writes what (spec/10_state.md R11, R16, R18; spec/20_memory.md R31). -/

namespace Sys2Proof.Machine

/-- FLAGS, RAM and IOADDR have their own writers among the instructions, and no other. -/
structure ExecFrame (i : Instr) (s t : State) : Prop where
  flags : i.isAlu = false → i ≠ .clf → t.flags = s.flags
  ram : (∀ a b, i ≠ .st a b) → t.ram = s.ram
  ioaddr : (∀ b, i ≠ .outa b) → t.ioaddr = s.ioaddr

theorem ExecFrame.of_keeps {i : Instr} {s t : State} (flags : t.flags = s.flags) (ram : t.ram = s.ram)
    (ioaddr : t.ioaddr = s.ioaddr) : ExecFrame i s t :=
  ⟨fun _ _ => flags, fun _ => ram, fun _ => ioaddr⟩

@[simp] theorem isAlu_aluInstr (op : AluOp) (a b : Reg) : (aluInstr op a b).isAlu = true := by cases op <;> rfl

theorem exec_frame {i : Instr} {s t : State} (h : exec i s = .next t) : ExecFrame i s t := by
  induction i using Instr.casesByClass with
  | st a b => exact of_next h ⟨fun _ _ => rfl, fun notSt => absurd rfl (notSt a b), fun _ => rfl⟩
  | clf => exact of_next h ⟨fun _ notClf => absurd rfl notClf, fun _ => rfl, fun _ => rfl⟩
  | outa b => exact of_next h ⟨fun _ _ => rfl, fun _ => rfl, fun notOuta => absurd rfl (notOuta b)⟩
  | ind b =>
    rw [exec_ind_frame h]
    exact .of_keeps rfl rfl rfl
  | outd b =>
    rw [exec_outd_frame h]
    exact .of_keeps rfl rfl rfl
  | alu op a b =>
    rw [exec_aluInstr, aluClass_eq] at h
    exact of_next h ⟨fun notAlu => absurd (isAlu_aluInstr op a b) (by simp [notAlu]), fun _ => rfl, fun _ => rfl⟩
  | _ => exact of_next h (.of_keeps rfl rfl rfl)

/-- Settles O52: the FLAGS part of the frame. -/
theorem onlyAluAndClfWriteFlags : Obligations.OnlyAluAndClfWriteFlags := by
  unfold Obligations.OnlyAluAndClfWriteFlags
  intro i s t h
  exact (exec_frame h).flags

/-- What ST leaves to be read (R106, R31). -/
theorem exec_st_readByte {a b : Reg} {s t : State} (h : exec (.st a b) s = .next t) (addr : Byte) :
    t.readByte addr = if addr = s.reg a then s.reg b else s.readByte addr := by
  cases h
  exact State.readByte_writeByte s (s.reg a) (s.reg b) addr

/-- Settles O53: ST by the law of its store, every other instruction by the RAM part of the frame. -/
theorem onlyStWritesRam : Obligations.OnlyStWritesRam := by
  unfold Obligations.OnlyStWritesRam
  intro i s t h addr elsewhere
  by_cases store : ∃ a b, i = .st a b
  · obtain ⟨a, b, rfl⟩ := store
    exact (exec_st_readByte h addr).trans (if_neg (elsewhere a b rfl))
  · have ram : t.ram = s.ram := (exec_frame h).ram fun a b isSt => store ⟨a, b, isSt⟩
    rw [State.readByte, ram, State.readByte]

/-- OUTA is the opcodes 7C to 7F (R51, D3). -/
theorem toNat_of_outa {w : Byte} (io : opClass w = .io) (outa : ioSub w = .outa) : w.toNat / 4 = 31 := by
  have class7 : w.toNat / 16 = 7 := by
    rw [opClass_eq] at io
    match hn : w.toNat / 16 with
    | 7 => rfl
    | 0 | 1 | 2 | 3 | 4 | 5 | 6 | n + 8 => rw [hn] at io; cases io
  have submode3 : (fieldA w).toNat = 3 := by
    have onlyThree : ∀ n : BitVec 2, ioSubmodeOf n = .outa → n.toNat = 3 := by decide
    exact onlyThree _ outa
  rw [toNat_fieldA] at submode3
  omega

theorem position3_ioaddr {s t : State} (h : position3 s = .next t) (notOuta : s.ir.toNat / 4 ≠ 31) :
    t.ioaddr = s.ioaddr := by
  unfold position3 at h
  cases hc : opClass s.ir <;> rw [hc] at h
  case io =>
    dsimp only at h
    cases hsub : ioSub s.ir <;> rw [hsub] at h
    case ind => rw [inputData_frame h]
    case outd => rw [outputData_frame h]
    case ina => cases h; rfl
    case outa => exact absurd (toNat_of_outa hc hsub) notOuta
  all_goals cases h; rfl

theorem position4_ioaddr {s t : State} (h : position4 s = .next t) : t.ioaddr = s.ioaddr := by
  unfold position4 at h
  cases hc : opClass s.ir <;> rw [hc] at h
  all_goals cases h; rfl

theorem position5_ioaddr {s t : State} (h : position5 s = .next t) : t.ioaddr = s.ioaddr := by
  cases hc : opClass s.ir with
  | jxxx =>
    rw [position5_jxxx hc] at h
    cases h
    split <;> rfl
  | alu op =>
    rw [position5_alu hc] at h
    cases h
    split <;> rfl
  | _ =>
    rw [position5, hc] at h
    cases h
    rfl

theorem positionAction_ioaddr {p : Nat} {s t : State} (h : positionAction p s = .next t)
    (notOuta : s.ir.toNat / 4 ≠ 31) : t.ioaddr = s.ioaddr := by
  match p with
  | 0 | 1 | 2 => cases h; rfl
  | 3 => exact position3_ioaddr h notOuta
  | 4 => exact position4_ioaddr h
  | 5 => exact position5_ioaddr h
  | _ + 6 => cases h; rfl

/-- Settles O54: the IOADDR part of the frame, and a position at a time. -/
theorem onlyOutaWritesIoaddr : Obligations.OnlyOutaWritesIoaddr := by
  unfold Obligations.OnlyOutaWritesIoaddr
  refine ⟨fun i s t h => (exec_frame h).ioaddr, fun s t h notOuta => ?_⟩
  rw [stepCycle_eq, onNext_eq_next] at h
  obtain ⟨m, action, ticked⟩ := h
  have kept : m.ioaddr = s.ioaddr := positionAction_ioaddr action notOuta
  cases ticked
  exact kept

theorem eq_of_reg_written {g : Registers} {b q : Reg} {v : Byte}
    (h : readRegister (writeRegister g b v) q ≠ readRegister g q) : q = b := by
  by_contra other
  exact h ((readRegister_writeRegister g b q v).trans (if_neg other))

/-- The instructions that write their operand B themselves, without a handler (R11). -/
def WritesB (i : Instr) (b : Reg) : Prop :=
  ∃ a : Reg, i = .ld a b ∨ (∃ imm, i = .data b imm) ∨ i = .ina b ∨ (∃ op : AluOp, op ≠ .cmp ∧ i = aluInstr op a b)

theorem writesB_of_exec {i : Instr} {s t : State} {q : Reg} (h : exec i s = .next t) (written : t.reg q ≠ s.reg q)
    (quiet : t.traffic = s.traffic) : WritesB i q := by
  induction i using Instr.casesByClass with
  | ld a b =>
    cases h
    cases eq_of_reg_written written
    exact ⟨a, .inl rfl⟩
  | data b imm =>
    cases h
    cases eq_of_reg_written written
    exact ⟨q, .inr (.inl ⟨imm, rfl⟩)⟩
  | ina b =>
    cases h
    cases eq_of_reg_written written
    exact ⟨q, .inr (.inr (.inl rfl))⟩
  | alu op a b =>
    rw [exec_aluInstr, aluClass_eq] at h
    cases h
    by_cases hop : op = .cmp
    · subst hop
      exact absurd rfl written
    · simp only [State.reg, if_neg hop] at written
      cases eq_of_reg_written written
      exact ⟨a, .inr (.inr (.inr ⟨op, hop, rfl⟩))⟩
  | ind b =>
    obtain ⟨m, transfer, advanced⟩ := onNext_eq_next.mp h
    cases advanced
    obtain ⟨-, rfl⟩ | ⟨v, halt, w, -, -, rfl⟩ := inputData_next transfer
    · exact absurd rfl written
    · exact absurd quiet (by simp)
  | outd b =>
    obtain ⟨m, transfer, advanced⟩ := onNext_eq_next.mp h
    cases advanced
    obtain ⟨-, rfl⟩ | ⟨v, halt, w, -, -, rfl⟩ := outputData_next transfer
    · exact absurd rfl written
    · exact absurd quiet (by simp)
  | _ =>
    cases h
    exact absurd rfl written

/-- Settles O55: instruction by instruction, a port call being ruled out by the traffic. -/
theorem onlyOperandBIsWritten : Obligations.OnlyOperandBIsWritten := by
  unfold Obligations.OnlyOperandBIsWritten
  intro i s t q
  exact writesB_of_exec

end Sys2Proof.Machine

/-! A run of positions by what is still to come of it: the one port call is made at position 3, by the opcode byte in IR
(spec/41_microcycle_engine.md R98). -/

namespace Sys2Proof.Machine

/-- The second byte is of no matter to a port call. -/
theorem portCallOf_decodeOp (w imm imm' : Byte) (s : State) :
    portCallOf (decodeOp w imm) s = portCallOf (decodeOp w imm') s := by
  unfold decodeOp
  cases opClass w <;> rfl

theorem blockedOn_decodeOp (w imm imm' : Byte) (s : State) :
    blockedOn (decodeOp w imm) s ↔ blockedOn (decodeOp w imm') s := by
  rw [blockedOn_iff, blockedOn_iff, portCallOf_decodeOp w imm imm']

theorem fetched_eq_relatch (s : State) :
    s.fetched = s.relatch (s.pc + 1#8) (s.readByte s.pc) s.pc (s.pc + 1#8) s.tmp := by
  rw [State.fetched_eq]
  rfl

/-- `step_instruction()` by the actions of its positions, the ticks last. -/
theorem stepInstruction_eq_runActions {s : State} {p : Nat} (hp : s.clockCycle % 7 = p) :
    stepInstruction s = onNext (runActions p (7 - p) s) (fun t => .next (t.tick (7 - p))) := by
  rw [stepInstruction_eq_runCycles, hp]
  exact runCycles_eq_runActions hp (by omega)

/-- From positions 0 to 3 on: what comes is positions 3 to 6, from the state with the opcode at PC, at MAR or in IR loaded. -/
def State.atPosition3 (s : State) : Nat → State
  | 0 => s.fetched
  | 1 => s.relatch s.acc (s.readByte s.mar) s.mar s.acc s.tmp
  | 2 => s.relatch s.acc s.ir s.mar s.acc s.tmp
  | _ => s

theorem runActions_eq_fromPosition3 {p : Nat} (s : State) (hp : p ≤ 3) :
    runActions p (7 - p) s = runActions 3 4 (s.atPosition3 p) := by
  match p with
  | 0 => exact runActions_instruction s
  | 1 | 2 | 3 => rfl

/-- Up to position 3 nothing is written but PC and latches. -/
theorem State.exists_relatch_atPosition3 (s : State) (p : Nat) :
    ∃ pc ir mar acc, s.atPosition3 p = s.relatch pc ir mar acc s.tmp := by
  match p with
  | 0 => exact ⟨_, _, _, _, fetched_eq_relatch s⟩
  | 1 | 2 => exact ⟨_, _, _, _, rfl⟩
  | _ + 3 => exact ⟨s.pc, s.ir, s.mar, s.acc, rfl⟩

/-- The instruction `toExecute` names is, but for its second byte, the one in IR at position 3. -/
theorem toExecute_eq {s : State} {p : Nat} (hp : s.clockCycle % 7 = p) (early : p ≤ 3) :
    ∃ imm, s.toExecute = some (decodeOp (s.atPosition3 p).ir imm) := by
  rw [State.toExecute, State.position_eq, hp]
  match p with
  | 0 => exact ⟨s.readByte (s.pc + 1#8), congrArg some (fetchInstr_eq s)⟩
  | 1 | 2 | 3 => exact ⟨0#8, rfl⟩

theorem toExecute_eq_none {s : State} {p : Nat} (hp : s.clockCycle % 7 = p) (late : 3 < p) : s.toExecute = none := by
  rw [State.toExecute, State.position_eq, hp]
  match p with
  | 0 | 1 | 2 | 3 => omega
  | _ + 4 => rfl

end Sys2Proof.Machine

/-! Where a call of each of the three operations hangs (spec/60_exceptions.md R140, R155). -/

namespace Sys2Proof.Machine

theorem position3_hangsIff (s : State) : HangsIff (blockedOn (decodeOp s.ir 0#8) s) (position3 s) := by
  unfold position3 decodeOp
  cases opClass s.ir with
  | io =>
    dsimp only
    cases ioSub s.ir with
    | ind => exact inputData_hangsIff (ioReg s.ir) s
    | outd => exact outputData_hangsIff (ioReg s.ir) s
    | ina | outa => exact .next _
  | alu op => exact .inr ⟨not_blockedOn_aluInstr op _ _ s, _, rfl⟩
  | _ => exact .next _

theorem position4_completes (s : State) : HangsIff False (position4 s) := by
  unfold position4
  cases opClass s.ir <;> exact .next _

theorem position5_completes (s : State) : HangsIff False (position5 s) := by
  unfold position5
  cases opClass s.ir <;> exact .next _

/-- Only position 3 can hang. -/
theorem positionAction_hangsIff (p : Nat) (s : State) :
    HangsIff (p = 3 ∧ blockedOn (decodeOp s.ir 0#8) s) (positionAction p s) := by
  match p with
  | 0 | 1 | 2 => exact (HangsIff.next _).congr (by simp)
  | 3 => exact (position3_hangsIff s).congr (by simp)
  | 4 => exact (position4_completes s).congr (by simp)
  | 5 => exact (position5_completes s).congr (by simp)
  | _ + 6 => exact (HangsIff.next _).congr (iff_of_false id fun ⟨at3, _⟩ => by omega)

theorem stepCycle_hangsIff (s : State) :
    HangsIff (s.position = 3 ∧ blockedOn (decodeOp s.ir 0#8) s) (stepCycle s) :=
  (positionAction_hangsIff s.position s).onNext fun _ => .next _

/-- From position 4 on no port call is left to be made. -/
theorem runActions_completes {p : Nat} (k : Nat) (s : State) (late : 3 < p) : HangsIff False (runActions p k s) := by
  induction k generalizing p s with
  | zero => exact .next s
  | succ k ih =>
    have completes : HangsIff False (positionAction p s) :=
      (positionAction_hangsIff p s).congr (iff_of_false (fun ⟨at3, _⟩ => by omega) id)
    exact completes.onNext fun t => ih t (by omega)

theorem runActions_hangsIff (s : State) (imm : Byte) :
    HangsIff (blockedOn (decodeOp s.ir imm) s) (runActions 3 4 s) :=
  ((position3_hangsIff s).congr (blockedOn_decodeOp s.ir 0#8 imm s)).onNext fun t => runActions_completes 3 t (by omega)

theorem stepInstruction_hangsIff (s : State) :
    HangsIff (∃ i, s.toExecute = some i ∧ blockedOn i s) (stepInstruction s) := by
  generalize hp : s.clockCycle % 7 = p
  rw [stepInstruction_eq_runActions hp]
  refine HangsIff.onNext ?_ fun _ => .next _
  by_cases early : p ≤ 3
  · obtain ⟨imm, named⟩ := toExecute_eq hp early
    obtain ⟨pc, ir, mar, acc, relatched⟩ := s.exists_relatch_atPosition3 p
    rw [runActions_eq_fromPosition3 s early]
    refine (runActions_hangsIff (s.atPosition3 p) imm).congr ?_
    generalize decodeOp (s.atPosition3 p).ir imm = i at named
    rw [relatched, blockedOn_relatch]
    simp [named]
  · have late : 3 < p := by omega
    exact (runActions_completes (7 - p) s late).congr (by simp [toExecute_eq_none hp late])

theorem step_ne_refused (s : State) (r : Refusal) : step s ≠ .refused r := by
  cases driver : s.driver with
  | cycle => rw [step_cycle driver]; exact (stepCycle_hangsIff s).ne_refused r
  | instruction => rw [step_instruction driver]; exact (stepInstruction_hangsIff s).ne_refused r
  | fast => rw [step_fast driver]; exact (stepInstructionFast_hangsIff s).ne_refused r

/-- Settles O16: each call by the law of where it hangs. -/
theorem stepStopsOnlyOnABlockedHandler : Obligations.StepStopsOnlyOnABlockedHandler := by
  unfold Obligations.StepStopsOnlyOnABlockedHandler
  refine ⟨step_ne_refused, fun s r driver => ?_, fun s r driver => ?_, fun s r driver => ?_⟩
  · rw [step_fast driver]
    exact (stepInstructionFast_hangsIff s).fault_iff r
  · rw [step_cycle driver]
    exact (stepCycle_hangsIff s).fault_iff r
  · rw [step_instruction driver]
    exact (stepInstruction_hangsIff s).fault_iff r

end Sys2Proof.Machine

/-! `running` is not tested by a call (spec/41_microcycle_engine.md R104; D13), and the driver's loop that tests it
(spec/60_exceptions.md R150). -/

namespace Sys2Proof.Machine

/-- The answer of an operation, with `running` cleared in it. -/
abbrev haltedOutcome (o : Host.Outcome State Fault Refusal) : Host.Outcome State Fault Refusal :=
  onNext o (fun t => .next t.halted)

theorem positionAction_halted {p : Nat} {s : State}
    (hs : p = 3 → s.sameReplyHalted (portCallOf (decodeOp s.ir 0#8) s)) :
    positionAction p s.halted = haltedOutcome (positionAction p s) :=
  positionAction_bookkeep (c := id) keepsClearing_false hs

theorem stepCycle_halted {s : State}
    (hs : s.sameReplyHalted (if s.position = 3 then portCallOf (decodeOp s.ir 0#8) s else none)) :
    stepCycle s.halted = haltedOutcome (stepCycle s) := by
  have action : positionAction (s.clockCycle % 7) s.halted = haltedOutcome (positionAction (s.clockCycle % 7) s) :=
    positionAction_halted fun at3 => by rwa [State.position_eq, if_pos at3] at hs
  rw [stepCycle_eq, stepCycle_eq, haltedOutcome, onNext_assoc]
  exact (congrArg (onNext · _) action).trans (onNext_assoc _ _ _)

/-- From position 3 on; after it the premise is of no matter. -/
theorem runActions_halted {p k : Nat} {s : State} (hp : 3 ≤ p)
    (hs : p = 3 → s.sameReplyHalted (portCallOf (decodeOp s.ir 0#8) s)) :
    runActions p k s.halted = haltedOutcome (runActions p k s) := by
  induction k generalizing p s with
  | zero => rfl
  | succ k ih =>
    rw [runActions_succ, positionAction_halted hs, runActions_succ, haltedOutcome, haltedOutcome, onNext_assoc, onNext_assoc]
    exact onNext_congr fun m _ => ih (by omega) (by omega)

theorem atPosition3_halted (s : State) (p : Nat) : s.halted.atPosition3 p = (s.atPosition3 p).halted := by
  match p with
  | 0 | 1 | 2 | _ + 3 => rfl

theorem stepInstruction_halted {s : State}
    (hs : s.sameReplyHalted (s.toExecute.bind (fun i => portCallOf i s))) :
    stepInstruction s.halted = haltedOutcome (stepInstruction s) := by
  generalize hp : s.clockCycle % 7 = p
  have actions : runActions p (7 - p) s.halted = haltedOutcome (runActions p (7 - p) s) := by
    by_cases early : p ≤ 3
    · rw [runActions_eq_fromPosition3 s early, runActions_eq_fromPosition3 s.halted early, atPosition3_halted]
      refine runActions_halted (Nat.le_refl 3) fun _ => ?_
      obtain ⟨imm, named⟩ := toExecute_eq hp early
      obtain ⟨pc, ir, mar, acc, relatched⟩ := s.exists_relatch_atPosition3 p
      rw [named, Option.bind_some, portCallOf_decodeOp _ imm 0#8] at hs
      generalize decodeOp (s.atPosition3 p).ir 0#8 = i at hs ⊢
      rw [relatched, portCallOf_relatch]
      exact hs
    · exact runActions_halted (by omega) (by omega)
  rw [stepInstruction_eq_runActions hp, stepInstruction_eq_runActions (s := s.halted) hp, actions, haltedOutcome,
    haltedOutcome, onNext_assoc, onNext_assoc]
  rfl

theorem stepInstructionFast_halted {s : State} (hs : s.sameReplyHalted (portCallOf s.fetchInstr s)) :
    stepInstructionFast s.halted = haltedOutcome (stepInstructionFast s) := by
  have sameCall : portCallOf s.fetchInstr s.loadOpcode = portCallOf s.fetchInstr s := portCallOf_relatch ..
  have meaning : exec s.fetchInstr s.loadOpcode.halted = haltedOutcome (exec s.fetchInstr s.loadOpcode) :=
    exec_bookkeep (c := id) keepsClearing_false (by rw [sameCall]; exact hs)
  rw [stepInstructionFast_eq, stepInstructionFast_eq, haltedOutcome, onNext_assoc]
  exact (congrArg (onNext · _) meaning).trans (onNext_assoc _ _ _)

/-- Settles O58: the three operations. -/
theorem stepDoesNotTestRunning : Obligations.StepDoesNotTestRunning := by
  unfold Obligations.StepDoesNotTestRunning
  intro s
  exact ⟨stepCycle_halted, stepInstruction_halted, stepInstructionFast_halted⟩

theorem drive_of_ended {s : State} (n : Nat) (h : s.ended = true) : drive n s = .next s := by
  cases n with
  | zero => rfl
  | succ n => exact if_pos h

theorem drive_of_not_ended {s : State} (n : Nat) (h : s.ended = false) : drive (n + 1) s = onNext (step s) (drive n) :=
  if_neg (by rw [h]; decide)

/-- A run that has ended stays where it is. -/
theorem drive_add {n : Nat} (m : Nat) {s t : State} (h : drive n s = .next t) (ended : t.ended = true) :
    drive (n + m) s = .next t := by
  induction n generalizing s with
  | zero =>
    cases h
    exact drive_of_ended (0 + m) ended
  | succ n ih =>
    rw [Nat.succ_add]
    cases hs : s.ended with
    | true =>
      rw [drive_of_ended _ hs] at h ⊢
      exact h
    | false =>
      rw [drive_of_not_ended _ hs] at h ⊢
      obtain ⟨u, call, rest⟩ := onNext_eq_next.mp h
      rw [call, onNext_next]
      exact ih rest

/-- Settles O28: the loop's two equations, and their consequence for a run that has ended. -/
theorem runEndsAtTheFirstHaltedBoundary : Obligations.RunEndsAtTheFirstHaltedBoundary := by
  unfold Obligations.RunEndsAtTheFirstHaltedBoundary
  intro n m s t
  refine ⟨drive_add m, fun boundary halted => drive_of_ended n ?_, drive_of_not_ended n⟩
  rw [State.ended, boundary, halted]
  rfl

/-- Settles O27: the clock of k fast calls, and the idle call at position 6. -/
theorem fastCallsMoveThePositionBack : Obligations.FastCallsMoveThePositionBack := by
  unfold Obligations.FastCallsMoveThePositionBack
  intro k s t boundary fast
  have clock : t.clockCycle = s.clockCycle + 6 * k := runFast_clockCycle fast
  rw [State.position_eq]
  refine ⟨by omega, fun one => ⟨stepCycle_at_six (by omega), by omega⟩⟩

end Sys2Proof.Machine

/-! PC and the latches: what an instruction leaves in PC (spec/10_state.md R14), and that neither PC nor a latch reaches
anything else (R24). -/

namespace Sys2Proof.Machine

/-- PC after an instruction (R14). -/
def pcAfter (i : Instr) (s : State) : Byte :=
  match i with
  | .data _ _ => s.pc + 2#8
  | .jmpr b => s.reg b
  | .jmp addr => addr
  | .jxxx mask addr => if s.flags &&& mask ≠ 0#4 then addr else s.pc + 2#8
  | _ => s.pc + 1#8

theorem exec_pc {i : Instr} {s t : State} (h : exec i s = .next t) : t.pc = pcAfter i s := by
  induction i using Instr.casesByClass with
  | ld a b => rw [exec_ld] at h; cases h; rfl
  | st a b => rw [exec_st] at h; cases h; rfl
  | data b imm => rw [exec_data] at h; cases h; rfl
  | jmpr b => cases h; rfl
  | jmp addr => cases h; rfl
  | jxxx mask addr =>
    rw [exec_jxxx] at h
    simp only [jumpTaken_iff] at h
    cases h
    rfl
  | clf => rw [exec_clf] at h; cases h; rfl
  | ind b => rw [exec_ind_frame h]; rfl
  | ina b => rw [exec_ina] at h; cases h; rfl
  | outd b => rw [exec_outd_frame h]; rfl
  | outa b => rw [exec_outa] at h; cases h; rfl
  | alu op a b =>
    rw [exec_aluInstr, aluClass_eq] at h
    cases h
    cases op <;> rfl

/-- The second byte of a two-byte instruction. -/
def immediateOf : Instr → Option Byte
  | .data _ imm | .jmp imm | .jxxx _ imm => some imm
  | _ => none

theorem immediateOf_decodeOp {w imm v : Byte} (h : immediateOf (decodeOp w imm) = some v) : v = imm := by
  unfold decodeOp at h
  cases hc : opClass w <;> rw [hc] at h
  case data | jmp | jxxx => exact (Option.some.inj h).symm
  case io =>
    dsimp only at h
    cases hsub : ioSub w <;> rw [hsub] at h <;> cases h
  case alu op => cases op <;> cases h
  all_goals cases h

theorem immediateOf_fetchInstr {s : State} {v : Byte} (h : immediateOf s.fetchInstr = some v) :
    v = s.readByte (s.pc + 1#8) := by
  rw [fetchInstr_eq] at h
  exact immediateOf_decodeOp h

theorem stepInstructionFast_pc {s t : State} (h : stepInstructionFast s = .next t) : t.pc = pcAfter s.fetchInstr s := by
  rw [stepInstructionFast_eq, onNext_eq_next] at h
  obtain ⟨m, meaning, ticked⟩ := h
  cases ticked
  exact (exec_pc meaning :)

/-- From another PC and other latches an instruction does the same to everything else; and where only the latches differ,
the same to PC. -/
theorem exec_relatch {i : Instr} {s t : State} (h : exec i s = .next t) (pc ir mar acc tmp : Byte) :
    ∃ pc' ir' mar' acc' tmp', exec i (s.relatch pc ir mar acc tmp) = .next (t.relatch pc' ir' mar' acc' tmp') ∧
      (pc = s.pc → pc' = t.pc) := by
  induction i using Instr.casesByClass with
  | ind b =>
    obtain ⟨m, transfer, advanced⟩ := onNext_eq_next.mp h
    have samePc : m.pc = s.pc := by rw [inputData_frame transfer]
    cases advanced
    rw [exec_ind, inputData_update (portBlind_relatch pc ir mar acc tmp) fun _ _ => rfl, transfer]
    exact ⟨_, _, _, _, _, rfl, fun same => congrArg increment (same.trans samePc.symm)⟩
  | outd b =>
    obtain ⟨m, transfer, advanced⟩ := onNext_eq_next.mp h
    have samePc : m.pc = s.pc := by rw [outputData_frame transfer]
    cases advanced
    rw [exec_outd, outputData_update (portBlind_relatch pc ir mar acc tmp) fun _ _ => rfl, transfer]
    exact ⟨_, _, _, _, _, rfl, fun same => congrArg increment (same.trans samePc.symm)⟩
  | alu op a b =>
    rw [exec_aluInstr, aluClass_eq] at h ⊢
    cases h
    exact ⟨_, _, _, _, _, rfl, fun same => congrArg (· + 1#8) same⟩
  | jmpr b | jmp addr =>
    cases h
    exact ⟨_, _, _, _, _, rfl, fun _ => rfl⟩
  | jxxx mask addr =>
    cases h
    exact ⟨_, _, _, _, _, rfl, fun same => by subst same; rfl⟩
  | data b imm =>
    cases h
    exact ⟨_, _, _, _, _, rfl, congrArg (increment ∘ increment)⟩
  | _ =>
    cases h
    exact ⟨_, _, _, _, _, rfl, congrArg increment⟩

/-- Settles O51: PC by the law above, the immediate being the byte after the opcode; and the registers from another PC. -/
theorem programCounterAfterEachInstruction : Obligations.ProgramCounterAfterEachInstruction := by
  unfold Obligations.ProgramCounterAfterEachInstruction
  refine ⟨fun s t h => ?_, fun i s t p h => ?_⟩
  · rw [stepInstructionFast_pc h]
    have second := @immediateOf_fetchInstr s
    cases hi : s.fetchInstr with
    | jmp addr => exact second (by rw [hi]; rfl)
    | jxxx mask addr =>
      rw [← second (v := addr) (by rw [hi]; rfl)]
      rfl
    | _ => rfl
  · obtain ⟨pc', ir', mar', acc', tmp', again, -⟩ := exec_relatch h p s.ir s.mar s.acc s.tmp
    exact ⟨_, again, rfl⟩

theorem sameButLatches_iff {s s' : State} :
    s.sameButLatches s' ↔ ∃ ir mar acc tmp, s' = s.relatch s.pc ir mar acc tmp := by
  constructor
  · intro same
    exact ⟨_, _, _, _, same.symm⟩
  · rintro ⟨ir, mar, acc, tmp, rfl⟩
    rfl

/-- Of the latches before a fetch only TMP is left after it, and no meaning reads that. -/
theorem exec_fetched_sameButLatches {s s' t : State} (same : s.sameButLatches s')
    (h : exec s.fetchInstr s.loadOpcode = .next t) :
    ∃ t', exec s'.fetchInstr s'.loadOpcode = .next t' ∧ t.sameButLatches t' := by
  obtain ⟨ir, mar, acc, tmp, rfl⟩ := sameButLatches_iff.mp same
  obtain ⟨pc', ir', mar', acc', tmp', meaning, samePc⟩ :=
    exec_relatch h s.pc (s.readByte s.pc) s.pc (increment s.pc) tmp
  refine ⟨_, meaning, sameButLatches_iff.mpr ⟨ir', mar', acc', tmp', ?_⟩⟩
  rw [samePc rfl]

/-- Settles O59: under both engines the meaning is what runs, from the fetched state. -/
theorem latchesAreDeadAtABoundary : Obligations.LatchesAreDeadAtABoundary := by
  unfold Obligations.LatchesAreDeadAtABoundary
  intro s s' t same
  have sameClock : s'.clockCycle = s.clockCycle := by
    obtain ⟨ir, mar, acc, tmp, rfl⟩ := sameButLatches_iff.mp same
    rfl
  refine ⟨fun boundary h => ?_, fun h => ?_⟩
  · rw [runCycles_seven boundary, onNext_eq_next] at h
    obtain ⟨m, meaning, ticked⟩ := h
    obtain ⟨m', meaning', same'⟩ := exec_fetched_sameButLatches same meaning
    cases ticked
    rw [runCycles_seven (sameClock ▸ boundary), meaning']
    exact ⟨_, rfl, congrArg (State.tick · 7) same'⟩
  · rw [stepInstructionFast_eq, onNext_eq_next] at h
    obtain ⟨m, meaning, ticked⟩ := h
    obtain ⟨m', meaning', same'⟩ := exec_fetched_sameButLatches same meaning
    cases ticked
    rw [stepInstructionFast_eq, meaning']
    exact ⟨_, rfl, congrArg (State.tick · 6) same'⟩

/-- Settles O60: PC moves on by one, and the two bytes there are read through the store. -/
theorem storeIsSeenByTheNextFetch : Obligations.StoreIsSeenByTheNextFetch := by
  unfold Obligations.StoreIsSeenByTheNextFetch
  intro s t a b fetched h
  have pc : t.pc = s.pc + 1#8 := by rw [stepInstructionFast_pc h, fetched]; rfl
  have read : ∀ x, t.readByte x = if x = s.reg a then s.reg b else s.readByte x := by
    rw [stepInstructionFast_eq, fetched, onNext_eq_next] at h
    obtain ⟨m, meaning, ticked⟩ := h
    cases ticked
    exact (exec_st_readByte meaning :)
  have next : t.fetchInstr = decodeOp (t.readByte (s.pc + 1#8)) (t.readByte (s.pc + 2#8)) := by
    rw [fetchInstr_eq, pc, BitVec.add_assoc]
    rfl
  have twoBytes : s.pc + 1#8 ≠ s.pc + 2#8 := by bv_omega
  refine ⟨pc, fun toOpcode => ?_, fun toSecond => ?_, fun notOpcode notSecond => ?_⟩
  · rw [next, read, read, toOpcode, if_pos rfl, if_neg twoBytes.symm]
  · rw [next, read, read, toSecond, if_pos rfl, if_neg twoBytes]
  · rw [next, read, read, if_neg notOpcode.symm, if_neg notSecond.symm]

end Sys2Proof.Machine

/-! The ALU in numbers (spec/40_alu.md R61 to R65, R78). -/

namespace Sys2Proof.Machine

theorem toNat_carryByte (cin : Bool) : (carryByte cin).toNat = cin.toNat := by cases cin <;> rfl

theorem aluResult_add_toNat (a b : Byte) (cin : Bool) :
    (aluResult .add a b cin).toNat = (a.toNat + b.toNat + cin.toNat) % 256 := BitVec.toNat_ofNat ..

theorem aluResult_shl_toNat (a b : Byte) (cin : Bool) :
    (aluResult .shl a b cin).toNat = (a.toNat <<< 1 ||| cin.toNat) % 256 := by
  have small : cin.toNat % 2 ^ 8 = cin.toNat := by cases cin <;> rfl
  calc (a <<< 1 ||| carryByte cin).toNat
    _ = a.toNat <<< 1 % 2 ^ 8 ||| cin.toNat % 2 ^ 8 := by
      rw [BitVec.toNat_or, BitVec.toNat_shiftLeft, toNat_carryByte, small]
    _ = (a.toNat <<< 1 ||| cin.toNat) % 2 ^ 8 := (Nat.or_mod_two_pow ..).symm

theorem aluResult_shr_toNat (a b : Byte) (cin : Bool) :
    (aluResult .shr a b cin).toNat = a.toNat >>> 1 ||| cin.toNat <<< 7 := by
  have top : (carryByte cin <<< 7).toNat = cin.toNat <<< 7 := by cases cin <;> rfl
  rw [aluResult, BitVec.toNat_or, BitVec.toNat_ushiftRight, top]

theorem aluResult_not_toNat (a b : Byte) (cin : Bool) : (aluResult .not a b cin).toNat = 255 - a.toNat :=
  BitVec.toNat_not

/-- A shift left with the carry in at bit 0 doubles and adds it. -/
theorem aluResult_shl_toNat_eq_add (a b : Byte) (cin : Bool) :
    (aluResult .shl a b cin).toNat = (2 * a.toNat + cin.toNat) % 256 := by
  have oneBit : cin.toNat < 2 ^ 1 := Bool.toNat_lt cin
  rw [aluResult_shl_toNat, ← Nat.shiftLeft_add_eq_or_of_lt oneBit, Nat.shiftLeft_eq, Nat.mul_comm]

/-- A shift right with the carry in at bit 7 halves and adds 128 of it. -/
theorem aluResult_shr_toNat_eq_add (a b : Byte) (cin : Bool) :
    (aluResult .shr a b cin).toNat = a.toNat / 2 + 128 * cin.toNat := by
  have below : a.toNat >>> 1 < 2 ^ 7 := by
    have := a.isLt
    rw [Nat.shiftRight_eq_div_pow]
    omega
  rw [aluResult_shr_toNat, Nat.or_comm, ← Nat.shiftLeft_add_eq_or_of_lt below, Nat.shiftLeft_eq,
    Nat.shiftRight_eq_div_pow]
  omega

theorem packFlags_toNat (carry larger equal zero : Bool) :
    (packFlags carry larger equal zero).toNat =
      8 * carry.toNat + 4 * larger.toNat + 2 * equal.toNat + zero.toNat := by
  revert carry larger equal zero
  decide

/-! The flags output bit by bit (R64). -/

theorem carry_aluFlags (op : AluOp) (a b : Byte) (cin : Bool) :
    (aluFlags op a b cin).getLsbD 3 = aluCarry op a b cin := carryFlag_packFlags ..

theorem larger_aluFlags (op : AluOp) (a b : Byte) (cin : Bool) :
    (aluFlags op a b cin).getLsbD 2 = decide (a.toNat > b.toNat) := aLargerFlag_packFlags ..

theorem equal_aluFlags (op : AluOp) (a b : Byte) (cin : Bool) :
    (aluFlags op a b cin).getLsbD 1 = decide (a = b) := equalFlag_packFlags ..

theorem aluZero_eq (op : AluOp) (a b : Byte) (cin : Bool) :
    aluZero op a b cin = decide (op ≠ .cmp ∧ aluResult op a b cin = 0#8) := by
  rw [Bool.eq_iff_iff]
  simp [aluZero]

theorem zero_aluFlags (op : AluOp) (a b : Byte) (cin : Bool) :
    (aluFlags op a b cin).getLsbD 0 = decide (op ≠ .cmp ∧ aluResult op a b cin = 0#8) :=
  (zeroFlag_packFlags ..).trans (aluZero_eq op a b cin)

/-- Settles O29: the result of each operation in its numbers, and the flags output as the number of its four bits. -/
theorem aluFunctionIsAsSpecified : Obligations.AluFunctionIsAsSpecified := by
  unfold Obligations.AluFunctionIsAsSpecified
  intro a b cin
  refine ⟨aluResult_add_toNat a b cin, aluResult_shl_toNat a b cin, aluResult_shr_toNat a b cin,
    aluResult_not_toNat a b cin, rfl, rfl, rfl, rfl, fun op => ?_⟩
  rw [alu_f, alu_c, aluFlags, packFlags_toNat, aluZero_eq]
  cases op <;> rfl

/-- From NOT on no carry comes out and none goes in (R63). -/
theorem carryless_of_code {op : AluOp} (h : 3 ≤ (codeOfAluOp op).toNat) (a b : Byte) (cin cin' : Bool) :
    aluCarry op a b cin = false ∧ alu op a b cin = alu op a b cin' := by
  cases op with
  | add | shl | shr => exact absurd h (by decide)
  | not | and | or | xor | cmp => exact ⟨rfl, rfl⟩

theorem aluResult_shl_carry_ne_zero (a b : Byte) : aluResult .shl a b true ≠ 0#8 := by
  rw [ne_eq, BitVec.toNat_eq, aluResult_shl_toNat_eq_add, Bool.toNat_true, BitVec.toNat_zero]
  omega

theorem aluResult_shr_carry_ne_zero (a b : Byte) : aluResult .shr a b true ≠ 0#8 := by
  rw [ne_eq, BitVec.toNat_eq, aluResult_shr_toNat_eq_add, Bool.toNat_true, BitVec.toNat_zero]
  omega

/-- Settles O30: each law from the flag's own bit. -/
theorem aluLawsOfFlags : Obligations.AluLawsOfFlags := by
  unfold Obligations.AluLawsOfFlags
  intro op a b b' cin cin'
  simp only [alu_f, alu_c, larger_aluFlags, equal_aluFlags, zero_aluFlags, carry_aluFlags, decide_eq_true_iff]
  refine ⟨aluResult_add_toNat a b cin, decide_eq_true_iff, trivial, trivial, rfl, ?_, ?_, ?_, ?_, ?_, ?_, ?_⟩
  · rintro ⟨greater, rfl⟩
    exact Nat.lt_irrefl _ greater
  · exact decide_eq_decide.mpr ((and_iff_right (by decide)).trans BitVec.xor_eq_zero_iff)
  · rintro ⟨-, zero⟩
    obtain ⟨rfl, rfl⟩ := BitVec.or_eq_zero_iff.mp zero
    rfl
  · exact fun code => carryless_of_code code a b cin cin'
  · exact decide_eq_false fun ⟨_, zero⟩ => aluResult_shl_carry_ne_zero a b zero
  · exact decide_eq_false fun ⟨_, zero⟩ => aluResult_shr_carry_ne_zero a b zero
  · rintro (rfl | rfl | rfl | rfl) <;> rfl

end Sys2Proof.Machine

/-! The ALU-class instructions (spec/40_alu.md R66 to R74): the common rule, and each operation's numbers put into it. -/

namespace Sys2Proof.Machine

/-- Settles O42: the next state of the common rule, read register by register. -/
theorem aluClassCommonRule : Obligations.AluClassCommonRule := by
  unfold Obligations.AluClassCommonRule
  intro op a b s
  refine ⟨_, (exec_aluInstr op a b s).trans (aluClass_eq op a b s), fun q => ?_, rfl⟩
  by_cases hop : op = .cmp
  · simp [State.reg, hop]
  · simp [State.reg, hop, readRegister_writeRegister, carryFlag_eq]

/-- The seven operations with a result: x[B] takes it, ACC shows it, ZERO is its own. -/
theorem exec_alu_result {op : AluOp} (hop : op ≠ .cmp) (a b : Reg) (s : State) :
    ∃ t, exec (aluInstr op a b) s = .next t ∧
      (∀ q, t.reg q = if q = b then aluResult op (s.reg a) (s.reg b) (s.flags.getLsbD 3) else s.reg q) ∧
      t.flags.getLsbD 3 = aluCarry op (s.reg a) (s.reg b) (s.flags.getLsbD 3) ∧
      t.flags.getLsbD 2 = decide ((s.reg a).toNat > (s.reg b).toNat) ∧
      t.flags.getLsbD 1 = decide (s.reg a = s.reg b) ∧
      t.flags.getLsbD 0 = decide (t.reg b = 0#8) ∧
      t = { s with regs := t.regs, flags := t.flags, pc := s.pc + 1#8, acc := t.reg b, tmp := s.reg b } := by
  obtain ⟨t, run, regs, frame⟩ := aluClassCommonRule op a b s
  have flags : t.flags = aluFlags op (s.reg a) (s.reg b) (s.flags.getLsbD 3) := by rw [frame]; rfl
  have regB : t.reg b = aluResult op (s.reg a) (s.reg b) (s.flags.getLsbD 3) := (regs b).trans (if_pos ⟨rfl, hop⟩)
  refine ⟨t, run, fun q => ?_, ?_, ?_, ?_, ?_, ?_⟩
  · rw [regs, alu_c]
    simp only [hop, ne_eq, not_false_iff, and_true]
  · rw [flags, carry_aluFlags]
  · rw [flags, larger_aluFlags]
  · rw [flags, equal_aluFlags]
  · rw [flags, zero_aluFlags, regB, decide_eq_decide]
    exact and_iff_right hop
  · rw [regB, flags]
    exact frame

/-- A register file in numbers. -/
theorem toNat_reg_of_written {s t : State} {b : Reg} {v : Byte} {n : Nat}
    (h : ∀ q, t.reg q = if q = b then v else s.reg q) (hv : v.toNat = n) (q : Reg) :
    (t.reg q).toNat = if q = b then n else (s.reg q).toNat := by
  rw [h, ← hv]
  split <;> rfl

/-- Settles O43: the common rule with the numbers of ADD. -/
theorem addAddsWithCarry : Obligations.AddAddsWithCarry := by
  unfold Obligations.AddAddsWithCarry
  refine ⟨fun a b s => ?_, alu_decodes .add⟩
  obtain ⟨t, run, regs, carry, larger, equal, zero, frame⟩ := exec_alu_result (op := .add) (by decide) a b s
  have numbers := toNat_reg_of_written regs (aluResult_add_toNat ..)
  refine ⟨t, run, numbers, carry, larger, equal, zero.trans (decide_eq_decide.mpr ?_), frame⟩
  rw [BitVec.toNat_eq, numbers, if_pos rfl, BitVec.toNat_zero]

/-- Settles O44: the common rule with the numbers of SHL. -/
theorem shlShiftsLeftThroughCarry : Obligations.ShlShiftsLeftThroughCarry := by
  unfold Obligations.ShlShiftsLeftThroughCarry
  refine ⟨fun a b s => ?_, alu_decodes .shl⟩
  obtain ⟨t, run, regs, flagsAndFrame⟩ := exec_alu_result (op := .shl) (by decide) a b s
  exact ⟨t, run, toNat_reg_of_written regs (aluResult_shl_toNat_eq_add ..), flagsAndFrame⟩

/-- Settles O45: the common rule with the numbers of SHR. -/
theorem shrShiftsRightThroughCarry : Obligations.ShrShiftsRightThroughCarry := by
  unfold Obligations.ShrShiftsRightThroughCarry
  refine ⟨fun a b s => ?_, alu_decodes .shr⟩
  obtain ⟨t, run, regs, flagsAndFrame⟩ := exec_alu_result (op := .shr) (by decide) a b s
  exact ⟨t, run, toNat_reg_of_written regs (aluResult_shr_toNat_eq_add ..), flagsAndFrame⟩

/-- Settles O46: the common rule with the numbers of NOT; 255 - x is 0 for 255 alone. -/
theorem notComplementsTheRegister : Obligations.NotComplementsTheRegister := by
  unfold Obligations.NotComplementsTheRegister
  refine ⟨fun a b s => ?_, alu_decodes .not⟩
  obtain ⟨t, run, regs, carry, larger, equal, zero, frame⟩ := exec_alu_result (op := .not) (by decide) a b s
  have numbers := toNat_reg_of_written regs (aluResult_not_toNat ..)
  refine ⟨t, run, numbers, carry, larger, equal, zero.trans (decide_eq_decide.mpr ?_), frame⟩
  have below : (s.reg a).toNat < 256 := (s.reg a).isLt
  rw [BitVec.toNat_eq, numbers, if_pos rfl, BitVec.toNat_zero]
  omega

/-- Settles O47: the common rule at AND. -/
theorem andIsBitwiseWithCarryCleared : Obligations.AndIsBitwiseWithCarryCleared := by
  unfold Obligations.AndIsBitwiseWithCarryCleared
  exact ⟨exec_alu_result (op := .and) (by decide), alu_decodes .and⟩

/-- Settles O48: the common rule at OR; an OR is 0 for two zeros alone. -/
theorem orIsBitwiseWithCarryCleared : Obligations.OrIsBitwiseWithCarryCleared := by
  unfold Obligations.OrIsBitwiseWithCarryCleared
  refine ⟨fun a b s => ?_, alu_decodes .or⟩
  obtain ⟨t, run, regs, carry, larger, equal, zero, frame⟩ := exec_alu_result (op := .or) (by decide) a b s
  refine ⟨t, run, regs, carry, larger, equal, zero.trans (decide_eq_decide.mpr ?_), frame⟩
  rw [regs, if_pos rfl]
  exact BitVec.or_eq_zero_iff

/-- Settles O49: the common rule at XOR; an XOR is 0 for equal operands alone. -/
theorem xorIsBitwiseWithCarryCleared : Obligations.XorIsBitwiseWithCarryCleared := by
  unfold Obligations.XorIsBitwiseWithCarryCleared
  refine ⟨fun a b s => ?_, alu_decodes .xor⟩
  obtain ⟨t, run, regs, carry, larger, equal, zero, frame⟩ := exec_alu_result (op := .xor) (by decide) a b s
  refine ⟨t, run, regs, carry, larger, equal, zero.trans (decide_eq_decide.mpr ?_), frame⟩
  rw [regs, if_pos rfl]
  exact BitVec.xor_eq_zero_iff

/-- Settles O50: the common rule at CMP, which has no result to write. -/
theorem cmpWritesFlagsOnly : Obligations.CmpWritesFlagsOnly := by
  unfold Obligations.CmpWritesFlagsOnly
  refine ⟨fun a b s => ?_, alu_decodes .cmp⟩
  exact ⟨_, (exec_aluInstr .cmp a b s).trans (aluClass_eq .cmp a b s), carry_aluFlags .., larger_aluFlags ..,
    equal_aluFlags .., zero_aluFlags .., rfl⟩

end Sys2Proof.Machine

/-! The other eleven instructions (spec/42_load_store_data.md, 43_control_transfer.md, 44_clf_io.md): each its meaning, its
class of opcodes and its rows of the schedule. -/

namespace Sys2Proof.Machine

/-- Settles O31: LD by its meaning, with the written register read back; class 0; its rows of the schedule. -/
theorem ldLoadsTheByteAtTheRegister : Obligations.LdLoadsTheByteAtTheRegister := by
  unfold Obligations.LdLoadsTheByteAtTheRegister
  exact ⟨fun a b s => ⟨_, exec_ld a b s, fun q => readRegister_writeRegister s.regs b q _, rfl⟩, ld_decodes,
    fun s => ld_schedule⟩

/-- Settles O32: ST by its meaning, RAM read through the store; class 1; its rows of the schedule. -/
theorem stStoresOneByteAtTheRegister : Obligations.StStoresOneByteAtTheRegister := by
  unfold Obligations.StStoresOneByteAtTheRegister
  exact ⟨fun a b s => ⟨_, exec_st a b s, exec_st_readByte (exec_st a b s), rfl⟩, st_decodes, fun s => st_schedule⟩

/-- Settles O33: DATA by its meaning; class 2, with the immediate from the fetch; its rows of the schedule. -/
theorem dataLoadsTheImmediate : Obligations.DataLoadsTheImmediate := by
  unfold Obligations.DataLoadsTheImmediate
  refine ⟨fun b imm s => ⟨_, exec_data b imm s, fun q => readRegister_writeRegister s.regs b q imm, rfl⟩, data_decodes,
    fun s class2 => ?_, fun s => data_schedule⟩
  exact (fetchInstr_eq s).trans (data_decodes _ _ class2).1

/-- Settles O34: JMPR by its meaning; class 3; its rows of the schedule. -/
theorem jmprJumpsToTheRegister : Obligations.JmprJumpsToTheRegister := by
  unfold Obligations.JmprJumpsToTheRegister
  exact ⟨exec_jmpr, jmpr_decodes, fun s => jmpr_schedule⟩

/-- Settles O35: JMP by its meaning; class 4, with the target from the fetch; its rows of the schedule. -/
theorem jmpJumpsToTheSecondByte : Obligations.JmpJumpsToTheSecondByte := by
  unfold Obligations.JmpJumpsToTheSecondByte
  exact ⟨exec_jmp, jmp_decodes, fun s class4 => (fetchInstr_eq s).trans (jmp_decodes _ _ class4).1,
    fun s => jmp_schedule⟩

/-- A selected flag is set: some bit is set in both (R112, R114). -/
theorem jumpTaken_iff_exists (flags mask : FlagBits) :
    jumpTaken flags mask = true ↔ ∃ i : Fin 4, flags.getLsbD i = true ∧ mask.getLsbD i = true := by
  rw [jumpTaken_iff]
  constructor
  · intro nonzero
    by_contra none
    refine nonzero (BitVec.eq_of_getLsbD_eq fun i hi => ?_)
    have notBoth : ¬(flags.getLsbD i = true ∧ mask.getLsbD i = true) := fun both => none ⟨⟨i, hi⟩, both⟩
    rw [BitVec.getLsbD_and, BitVec.getLsbD_zero, Bool.and_eq_false_iff]
    simpa [Classical.or_iff_not_imp_left] using notBoth
  · rintro ⟨i, inFlags, inMask⟩ zero
    have bit : (flags &&& mask).getLsbD i = true := by rw [BitVec.getLsbD_and, inFlags, inMask]; rfl
    rw [zero, BitVec.getLsbD_zero] at bit
    cases bit

/-- Settles O36: JXXX by its meaning, the condition read bit by bit; class 5; its rows of the schedule. -/
theorem jxxxJumpsIfASelectedFlagIsSet : Obligations.JxxxJumpsIfASelectedFlagIsSet := by
  unfold Obligations.JxxxJumpsIfASelectedFlagIsSet
  refine ⟨fun mask addr s => ?_, jxxx_decodes, fun s class5 => (fetchInstr_eq s).trans (jxxx_decodes _ _ class5).1,
    fun s => jxxx_schedule⟩
  rw [exec_jxxx, if_congr (jumpTaken_iff_exists s.flags mask) rfl rfl]

/-- Settles O37: CLF by its meaning, which writes the flags output of `ALU(ADD, 0, 1, 0)`; class 6; its rows of the schedule. -/
theorem clfClearsTheFlags : Obligations.ClfClearsTheFlags := by
  unfold Obligations.ClfClearsTheFlags
  exact ⟨exec_clf, clearedFlags_eq, clf_decodes, fun s => clf_schedule⟩

/-- Settles O39: INA by its meaning; submode 1; position 3 makes the same read-back. -/
theorem inaReadsBackTheIoAddress : Obligations.InaReadsBackTheIoAddress := by
  unfold Obligations.InaReadsBackTheIoAddress
  exact ⟨fun b s => ⟨_, exec_ina b s, fun q => readRegister_writeRegister s.regs b q s.ioaddr, rfl⟩, io_decodes .ina,
    fun s h => ⟨io_position3 .ina h, io_positions4and5 (by omega)⟩⟩

/-- Settles O41: OUTA by its meaning; submode 3; position 3 loads IOADDR. -/
theorem outaSelectsThePort : Obligations.OutaSelectsThePort := by
  unfold Obligations.OutaSelectsThePort
  exact ⟨exec_outa, io_decodes .outa, fun s h => ⟨io_position3 .outa h, io_positions4and5 (by omega)⟩⟩

/-- What a handler wrote stands, and the rest is as before (R118 (b)). -/
theorem readRegister_applyWrites (g : Registers) (w : RegisterWrites) (q : Reg) :
    readRegister (applyWrites g w) q = (handlerWrote w q).getD (readRegister g q) := by
  cases q <;> rfl

theorem exec_ind_of_inputData {b : Reg} {s t : State} (h : inputData b s = .next t) :
    exec (.ind b) s = .next { t with pc := s.pc + 1#8 } := by
  have pc : t.pc = s.pc := by rw [inputData_frame h]
  rw [exec_ind, h, onNext_next, State.advance_eq, pc]

theorem exec_outd_of_outputData {b : Reg} {s t : State} (h : outputData b s = .next t) :
    exec (.outd b) s = .next { t with pc := s.pc + 1#8 } := by
  have pc : t.pc = s.pc := by rw [outputData_frame h]
  rw [exec_outd, h, onNext_next, State.advance_eq, pc]

theorem onNext_next_self (o : Host.Outcome State Fault Refusal) : onNext o .next = o := by cases o <;> rfl

/-- The transfer is the meaning of IND with PC put back. -/
theorem inputData_eq_exec (b : Reg) (s : State) :
    inputData b s = onNext (exec (.ind b) s) (fun t => .next { t with pc := s.pc }) := by
  rw [exec_ind, onNext_assoc]
  refine (onNext_next_self _).symm.trans (onNext_congr fun t transfer => ?_)
  have pc : s.pc = t.pc := by rw [inputData_frame transfer]
  rw [onNext_next, pc]
  rfl

/-- The transfer is the meaning of OUTD with PC put back. -/
theorem outputData_eq_exec (b : Reg) (s : State) :
    outputData b s = onNext (exec (.outd b) s) (fun t => .next { t with pc := s.pc }) := by
  rw [exec_outd, onNext_assoc]
  refine (onNext_next_self _).symm.trans (onNext_congr fun t transfer => ?_)
  have pc : s.pc = t.pc := by rw [outputData_frame transfer]
  rw [onNext_next, pc]
  rfl

/-- Settles O38: the handler's writes, then the byte to x[B]; and the default slot. -/
theorem indReadsThePort : Obligations.IndReadsThePort := by
  unfold Obligations.IndReadsThePort
  refine ⟨fun b s v halt w registered reply => ?_, fun b s default => exec_ind_of_inputData (inputData_default default),
    io_decodes .ind, fun s h => ⟨(io_position3 .ind h).trans (inputData_eq_exec _ s), io_positions4and5 (by omega)⟩⟩
  refine ⟨_, exec_ind_of_inputData (inputData_returns registered reply), fun q => ?_, rfl⟩
  exact (readRegister_writeRegister _ b q v).trans
    (if_congr Iff.rfl rfl (readRegister_applyWrites s.regs w q))

/-- Settles O40: the handler's writes and no other; and the default slot. -/
theorem outdWritesThePort : Obligations.OutdWritesThePort := by
  unfold Obligations.OutdWritesThePort
  refine ⟨fun b s v halt w registered reply => ?_, fun b s default => exec_outd_of_outputData (outputData_default default),
    io_decodes .outd, fun s h => ⟨(io_position3 .outd h).trans (outputData_eq_exec _ s), io_positions4and5 (by omega)⟩⟩
  exact ⟨_, exec_outd_of_outputData (outputData_returns registered reply), readRegister_applyWrites s.regs w, rfl⟩

end Sys2Proof.Machine
